-- ==== Sys2Proof/Word.lean ====
section
/-! DEFINITION. The words of the block: bytes, 16-bit and 32-bit register contents, 32-bit byte addresses. -/

namespace Sys2Proof

/-- One byte of memory: a channel value or a coverage byte (20_memory.md R40). -/
abbrev Byte := BitVec 8

/-- The stored bits of a position or size register (10_state.md R12, R14). -/
abbrev Half := BitVec 16

/-- A word of the host interface (10_state.md R11). -/
abbrev Word := BitVec 32

/-- A byte address; all address arithmetic is mod 2^32 (10_state.md R29). -/
abbrev Addr := BitVec 32

end Sys2Proof
end

