-- ==== Sys2Proof/Syntax.lean ====
section
/-! DEFINITION. The commands of the block, the host's transactions, and the assembler's lines. -/

namespace Sys2Proof

/-- The ten commands (30_encoding.md R62). A command word carries no operand (R63): every operand is read from the
registers when the command starts. -/
inductive Instr where
  | pblend
  | fill
  | fillb
  | shadow
  | cblend
  | blitRgb24
  | blitRgba32
  | blitBgr24
  | blitAbgr32
  | resize
  deriving DecidableEq, Repr

/-- The four raw pixel layouts (30_encoding.md R64, 41_blit.md R100). -/
inductive PixelFormat where
  | rgb24
  | rgba32
  | bgr24
  | abgr32
  deriving DecidableEq, Repr

/-- The fourteen registers of the host interface (10_state.md R11). -/
inductive RegName where
  | cmd
  | status
  | fbAddr
  | color
  | x
  | y
  | w
  | h
  | srcAddr
  | srcW
  | srcH
  | dstAddr
  | dstW
  | dstH
  deriving DecidableEq, Repr

/-- The width of a host access to the register window. Only `word` is defined (10_state.md R25). -/
inductive AccessWidth where
  | byte
  | half
  | word
  deriving DecidableEq, Repr

/-- What the host and the platform can do to the block and to the shared memory. An offset is 6 bits, the 0x40-byte
window of 10_state.md R11; an access outside the window does not reach the block (R24). -/
inductive HostAction where
  /-- `HostWrite(off, data)` (10_state.md R22). -/
  | regWrite (off : BitVec 6) (width : AccessWidth) (data : Word)
  /-- `HostRead(off)` (10_state.md R23). -/
  | regRead (off : BitVec 6) (width : AccessWidth)
  /-- The host writes one byte of the shared memory (10_state.md R29). -/
  | memWrite (a : Addr) (v : Byte)
  /-- The host reads one byte of the shared memory (10_state.md R29). -/
  | memRead (a : Addr)
  /-- The platform's reset, between transactions (70_reset_and_hazards.md R150). -/
  | reset
  /-- The host writes `word` to `CMD` and the platform asserts reset before that write completes
  (70_reset_and_hazards.md R151). -/
  | resetDuring (word : Word)
  deriving DecidableEq, Repr

/-- A value a host read returned (70_reset_and_hazards.md R162). -/
inductive HostDatum where
  | word (v : Word)
  | byte (v : Byte)
  deriving DecidableEq, Repr

/-- One line of the notation of 30_encoding.md R68. The value of `wr` is an integer: a negative decimal stands for its
two's complement pattern. `cmdWord` is `cmd` with a number in place of a mnemonic, as 95_test_vectors.md P2 uses it. -/
inductive AsmLine where
  | wr (reg : RegName) (value : Int)
  | rd (reg : RegName)
  | cmd (i : Instr)
  | cmdWord (word : Word)
  deriving DecidableEq, Repr

/-- The nine pseudo-instructions of 30_encoding.md R69. -/
inductive Pseudo where
  | setfb (addr : Int)
  | pblend (x y color : Int)
  | fill (x y w h color : Int)
  | fillb (x y w h color : Int)
  | shadow (x y w h color : Int)
  | cblend (x y w h addr color : Int)
  | drawImage (x y w h addr : Int) (fmt : PixelFormat)
  | resize (src sw sh dst dw dh : Int)
  | clrill
  deriving DecidableEq, Repr

end Sys2Proof
end

