-- ==== Sys2Proof/WellFormed.lean ====
section
/-! DEFINITION. Which terms the hardware gives a meaning: every command (a command has no operand to be wrong), and the
host accesses that are aligned 32-bit words. -/

namespace Sys2Proof

/-- Every command is well formed: a command word has no register number, no immediate and no mode bit
(30_encoding.md R60, R63). -/
def Instr.wellFormed : Instr → Bool
  | .pblend => true
  | .fill => true
  | .fillb => true
  | .shadow => true
  | .cblend => true
  | .blitRgb24 => true
  | .blitRgba32 => true
  | .blitBgr24 => true
  | .blitAbgr32 => true
  | .resize => true

/-- An offset that is a multiple of 4 (10_state.md R25). -/
def offsetAligned (off : BitVec 6) : Bool := off.toNat % 4 == 0

/-- "The host interface takes aligned 32-bit accesses only" (10_state.md R25). -/
def accessDefined (off : BitVec 6) (width : AccessWidth) : Bool :=
  match width with
  | .byte => false
  | .half => false
  | .word => offsetAligned off

/-- A host action the spec defines (10_state.md R22, R23, R25). -/
def HostAction.wellFormed : HostAction → Bool
  | .regWrite off width _ => accessDefined off width
  | .regRead off width => accessDefined off width
  | .memWrite _ _ => true
  | .memRead _ => true
  | .reset => true
  | .resetDuring _ => true

end Sys2Proof
end

