-- ==== Sys2Proof/Decode.lean ====
section
/-! DEFINITION. Command words: the decoder of 30_encoding.md R61, total on the 2^32 words, and the encoder written from the
opcode map of R62 and the format codes of R64. -/

namespace Sys2Proof

/-- Why a word selects no command. -/
inductive DecodeError where
  /-- `IllegalCommand(w)` (60_exceptions.md R131, 30_encoding.md R65). -/
  | illegalCommand (w : Word)
  deriving DecidableEq, Repr

/-- The `ZERO` field, bits 31:8 (30_encoding.md R60). -/
def zeroField (w : Word) : BitVec 24 := w.extractLsb' 8 24

/-- The `OP` field, bits 7:0 (30_encoding.md R60). -/
def opField (w : Word) : Byte := w.extractLsb' 0 8

/-- The case split of 30_encoding.md R61 on `OP`. -/
def decodeOp (op : Byte) : Option Instr :=
  match op.toNat with
  | 0x01 => some .pblend
  | 0x02 => some .fill
  | 0x03 => some .fillb
  | 0x04 => some .shadow
  | 0x05 => some .cblend
  | 0x10 => some .blitRgb24
  | 0x11 => some .blitRgba32
  | 0x12 => some .blitBgr24
  | 0x13 => some .blitAbgr32
  | 0x20 => some .resize
  | _ => none

/-- Decoding of a command word (30_encoding.md R61): bits 31:8 first, then `OP`. -/
def decode (w : Word) : Except DecodeError Instr :=
  if zeroField w = 0 then
    match decodeOp (opField w) with
    | some i => .ok i
    | none => .error (.illegalCommand w)
  else .error (.illegalCommand w)

/-- `FMT`, the two low bits of a BLIT opcode (30_encoding.md R64). -/
def fmtCode : PixelFormat → BitVec 2
  | .rgb24 => 0#2
  | .rgba32 => 1#2
  | .bgr24 => 2#2
  | .abgr32 => 3#2

/-- `OP` of a BLIT command: `OP[7:2] = 0b000100` and `OP[1:0] = FMT` (30_encoding.md R60). -/
def blitOp (fmt : PixelFormat) : Byte := 0b000100#6 ++ fmtCode fmt

/-- `OP` of each command (30_encoding.md R62). -/
def encodeOp : Instr → Byte
  | .pblend => 0x01#8
  | .fill => 0x02#8
  | .fillb => 0x03#8
  | .shadow => 0x04#8
  | .cblend => 0x05#8
  | .blitRgb24 => blitOp .rgb24
  | .blitRgba32 => blitOp .rgba32
  | .blitBgr24 => blitOp .bgr24
  | .blitAbgr32 => blitOp .abgr32
  | .resize => 0x20#8

/-- The command word: 24 zero bits, then `OP` (30_encoding.md R60). -/
def encode (i : Instr) : Word := 0#24 ++ encodeOp i

/-- The BLIT command of a format (30_encoding.md R62, R64). -/
def blitOf : PixelFormat → Instr
  | .rgb24 => .blitRgb24
  | .rgba32 => .blitRgba32
  | .bgr24 => .blitBgr24
  | .abgr32 => .blitAbgr32

/-- The command word of an opcode-table row: the low `nbits` bits of `w`, zero above them (log 18). -/
def tableWord (nbits w : Nat) : Word := BitVec.ofNat 32 (w % 2 ^ nbits)

/-- What the decoder reads from an opcode-table word. There is one command length, 32 bits (30_encoding.md R67), so
nothing is read from a longer one (log 18). -/
def decodeTableWord (nbits w : Nat) : Option Instr :=
  if nbits ≤ 32 then
    match decode (tableWord nbits w) with
    | .ok i => some i
    | .error _ => none
  else none

end Sys2Proof
end

