-- ==== Sys2Proof/Config.lean ====
section
/-! DEFINITION. The fixed parameters of 00_scope.md R6, and the free values: uninterpreted constants with no body, so that no
proof can see a value of theirs. -/

namespace Sys2Proof.Config

/-- `CANVAS_W` (00_scope.md R6). -/
def canvasW : Nat := 1280

/-- `CANVAS_H` (00_scope.md R6). -/
def canvasH : Nat := 720

/-- `FB_BPP`: bytes per framebuffer pixel (00_scope.md R6). -/
def fbBpp : Nat := 4

/-- `FB_STRIDE`: bytes per framebuffer row (00_scope.md R6). -/
def fbStride : Nat := 5120

/-- `FB_BYTES`: size of the framebuffer (00_scope.md R6). -/
def fbBytes : Nat := 3686400

/-- `SHADOW_ROWS`: rows of the drop-shadow band (00_scope.md R6). -/
def shadowRows : Nat := 4

/-- `RS_CHANNELS`: channels of a resampler image (00_scope.md R6). -/
def rsChannels : Nat := 3

/-- `RS_TAPS`: taps per axis of the resampler (00_scope.md R6). -/
def rsTaps : Nat := 4

/-- FREE VALUE (log 5): the `n`-th byte the spec leaves without a value. No body: nothing evaluates it. -/
opaque freeByte : Nat → Byte

/-- FREE VALUE (log 5, log 9): the `n`-th choice between an old and a new byte that the spec leaves open. -/
opaque freeChoice : Nat → Bool

/-- FREE VALUE (log 2): the byte an address holds at power-on, an arbitrary input (10_state.md R32,
70_reset_and_hazards.md R153). -/
opaque powerOnByte : Addr → Byte

end Sys2Proof.Config
end

