-- ==== Sys2Proof/Machine/State.lean ====
section
/-! DEFINITION. The state of the block as plain data (10_state.md R10), its reasons to stop, and the state after reset. -/

namespace Sys2Proof.Machine

/-- The reasons the machine stops with a fault: there is none. "The block raises no trap. No command, with any operand
values and any memory contents, stops the block" (60_exceptions.md R130). The one error, an illegal command word, is
reported by `STATUS.ILL` and the machine goes on (R131). Safe: nothing ends in a fault (log 12). -/
inductive Fault where
  deriving DecidableEq, Repr

/-- The reasons a step has no meaning. -/
inductive Refusal where
  /-- Raised by an arm of `exec` whose instruction has no meaning yet. Safe. No arm raises it now. -/
  | notModelled (mnemonic : String)
  /-- Raised by `step` on a host access to the register window that is not an aligned 32-bit access: UNPREDICTABLE, "a
  model refuses it" (10_state.md R25, 93_implementation_defined.md U3). Safe (log 6). -/
  | unpredictableHostAccess (off : BitVec 6) (width : AccessWidth)
  deriving DecidableEq, Repr

/-- The storage registers of 10_state.md R11, each with the bits it stores. `CMD` stores nothing (R19). -/
structure RegFile where
  /-- `STATUS` bit 0, `ILL` (R21). -/
  ill : Bool
  /-- `FB_ADDR` (R18). -/
  fbAddr : Word
  /-- `COLOR` (R13). -/
  color : Word
  /-- `X`, signed (R12). -/
  x : Half
  /-- `Y`, signed (R12). -/
  y : Half
  /-- `W` (R14). -/
  w : Half
  /-- `H` (R14). -/
  h : Half
  /-- `SRC_ADDR` (R15). -/
  srcAddr : Word
  /-- `SRC_W` (R16). -/
  srcW : Half
  /-- `SRC_H` (R16). -/
  srcH : Half
  /-- `DST_ADDR` (R17). -/
  dstAddr : Word
  /-- `DST_W` (R17). -/
  dstW : Half
  /-- `DST_H` (R17). -/
  dstH : Half
  deriving DecidableEq, Repr

/-- The register values after reset (10_state.md R32). -/
def RegFile.reset : RegFile where
  ill := false
  fbAddr := 0
  color := 0
  x := 0
  y := 0
  w := 0
  h := 0
  srcAddr := 0
  srcW := 0
  srcH := 0
  dstAddr := 0
  dstW := 0
  dstH := 0

/-- The shared memory (10_state.md R29): the bytes that have been written or given, by rising address. `Memory.wf` in
Ops.lean is the canonical form; an address not listed holds its power-on byte, a free value (log 2). -/
abbrev Memory := List Host.Cell

/-- The whole state (10_state.md R10): the registers and the memory. The last three fields are the model's own: the
transactions the host has still to issue (log 1), the values its reads returned (log 7), and the counter of free values
(log 5). -/
structure State where
  regs : RegFile
  mem : Memory
  host : List HostAction
  reads : List HostDatum
  freeCount : Nat
  deriving DecidableEq, Repr

/-- The machine right after reset (10_state.md R32, 70_reset_and_hazards.md R150). Memory lists nothing: every byte
is its power-on byte, a free value (log 2). -/
def State.reset : State where
  regs := RegFile.reset
  mem := []
  host := []
  reads := []
  freeCount := 0

end Sys2Proof.Machine
end

