-- ==== Sys2Proof/Machine/Ops.lean ====
section
/-! DEFINITION. The named operations over memory, regions, registers and the model's own fields; the loops of the
pseudocode; taking the one exception, `IllegalCommand`. -/

namespace Sys2Proof.Machine

/-! ## Memory -/

/-- What an address that the memory does not list reads as: no known value but a free one, since nothing has written it
and the power-on contents are arbitrary inputs, "not as zero" (10_state.md R32, 70_reset_and_hazards.md R153; log 2). -/
def unlistedByte (a : Addr) : Byte := Config.powerOnByte a

/-- The canonical form: addresses strictly rising and below 2^32. A listed byte is a known value and an unlisted address
has none, so no entry equals what an unlisted address holds (log 2). -/
abbrev Memory.wf (m : Memory) : Prop :=
  m.Pairwise (fun c d => c.1 < d.1) ∧ ∀ c ∈ m, c.1 < 2 ^ 32

/-- The byte listed for key `k`, if there is one. -/
def lookupCell : List Host.Cell → Nat → Option Byte
  | [], _ => none
  | c :: m, k => if c.1 = k then some c.2 else lookupCell m k

/-- The list without its entries for key `k`. -/
def eraseCell : List Host.Cell → Nat → List Host.Cell
  | [], _ => []
  | c :: m, k => if c.1 = k then eraseCell m k else c :: eraseCell m k

/-- The list with an entry put in front of the first larger key. -/
def insertCell : List Host.Cell → Nat → Byte → List Host.Cell
  | [], k, v => [(k, v)]
  | c :: m, k, v => if k < c.1 then (k, v) :: c :: m else c :: insertCell m k v

/-- The byte written last to an address, `none` where nothing has written it. -/
def Memory.written (m : Memory) (a : Addr) : Option Byte := lookupCell m a.toNat

/-- The byte at an address: memory is total (20_memory.md R45, log 3). -/
def Memory.read (m : Memory) (a : Addr) : Byte := (m.written a).getD (unlistedByte a)

/-- Memory with one byte written. -/
def Memory.write (m : Memory) (a : Addr) (v : Byte) : Memory := insertCell (eraseCell m a.toNat) a.toNat v

/-- The address `n` bytes after `a`, mod 2^32 (00_scope.md R7). -/
def addrPlus (a : Addr) (n : Nat) : Addr := a + BitVec.ofNat 32 n

/-- `MemRead(addr, n)` (00_scope.md R7). -/
def Memory.readBytes (m : Memory) (a : Addr) : Nat → List Byte
  | 0 => []
  | n + 1 => m.read a :: Memory.readBytes m (addrPlus a 1) n

/-- `MemWrite(addr, n, bytes)`, with `n` the number of bytes given (00_scope.md R7). -/
def Memory.writeBytes (m : Memory) (a : Addr) : List Byte → Memory
  | [] => m
  | b :: bs => Memory.writeBytes (m.write a b) (addrPlus a 1) bs

/-! ## Loops -/

/-- `for i in 0 .. n - 1: body i`, in rising order. -/
def forRange {σ : Type} : Nat → (Nat → σ → σ) → σ → σ
  | 0, _, s => s
  | n + 1, body, s => body n (forRange n body s)

/-- The row-major traversal of a `w` by `h` rectangle: rows from the top, left to right inside a row
(40_blend.md R84). `body` gets the column, then the row. -/
def forRect {σ : Type} (w h : Nat) (body : Nat → Nat → σ → σ) (s : σ) : σ :=
  forRange h (fun row => forRange w (fun col => body col row)) s

/-! ## Regions -/

/-- `a` is one of the addresses `(base + i) mod 2^32` for `0 <= i < len` (20_memory.md R46 to R49). -/
def inRegion (base : Addr) (len : Nat) (a : Addr) : Bool := (a - base).toNat < len

/-- Two regions share a byte (70_reset_and_hazards.md R155): each holds one, and one of the two base addresses lies in
the other region. -/
def regionsOverlap (base₁ : Addr) (len₁ : Nat) (base₂ : Addr) (len₂ : Nat) : Bool :=
  0 < len₁ && 0 < len₂ && (inRegion base₁ len₁ base₂ || inRegion base₂ len₂ base₁)

/-! ## Updates of one field -/

/-- The state with another memory. -/
def State.setMem (s : State) (m : Memory) : State := { s with mem := m }

/-- The state with other registers. -/
def State.setRegs (s : State) (r : RegFile) : State := { s with regs := r }

/-- The state with other transactions still to come (log 1). -/
def State.setHost (s : State) (l : List HostAction) : State := { s with host := l }

/-- The state after a host read returned `d`, kept oldest first (log 7). -/
def State.logRead (s : State) (d : HostDatum) : State := { s with reads := s.reads ++ [d] }

/-- The state after `n` free values were taken (log 5). -/
def State.useFree (s : State) (n : Nat) : State := { s with freeCount := s.freeCount + n }

/-! ## Free values in memory -/

/-- Memory with the bytes `base .. base + len - 1` (mod 2^32) replaced by the free values numbered from `n`. -/
def freeFill (m : Memory) (base : Addr) (len n : Nat) : Memory :=
  forRange len (fun i m => m.write (addrPlus base i) (Config.freeByte (n + i))) m

/-- Every byte of a region takes a free value of its own (log 4). -/
def State.freeRegion (s : State) (base : Addr) (len : Nat) : State :=
  (s.setMem (freeFill s.mem base len s.freeCount)).useFree len

/-- Memory in which each byte of a region is, by a free choice, the byte of `old` or the byte of `new`; every other byte
is the byte of `old` (70_reset_and_hazards.md R151, log 9). -/
def mixRegion (old new : Memory) (base : Addr) (len n : Nat) : Memory :=
  forRange len
    (fun i m => if Config.freeChoice (n + i) then m.write (addrPlus base i) (new.read (addrPlus base i)) else m) old

/-! ## The one exception, and its acknowledgement -/

/-- Taking `IllegalCommand`: "`STATUS.ILL <- 1`; nothing else" (60_exceptions.md R131, R136). -/
def State.raiseIllegal (s : State) : State := s.setRegs { s.regs with ill := true }

/-- The acknowledgement: the host writes `wdata` to `STATUS`, and bit 0 = 1 clears the flag (10_state.md R21,
60_exceptions.md R137). -/
def State.ackIllegal (s : State) (wdata : Word) : State :=
  s.setRegs { s.regs with ill := s.regs.ill && !wdata.getLsbD 0 }

/-- The platform's reset: every register takes its reset value, memory is neither read nor written
(70_reset_and_hazards.md R150). The host's own fields stay (log 16). -/
def State.blockReset (s : State) : State := s.setRegs RegFile.reset

end Sys2Proof.Machine
end

