-- ==== Sys2Proof/Machine/Operands.lean ====
section
/-! DEFINITION. The operands of a command, read from the registers when it starts (30_encoding.md R63): signed positions,
unsigned sizes, the colour's fields, the addresses of pixels and source bytes, and the regions of a command. -/

namespace Sys2Proof.Machine

/-- A colour or a framebuffer pixel `(r, g, b, a)` (00_scope.md R7). -/
structure Color where
  r : Byte
  g : Byte
  b : Byte
  a : Byte
  deriving DecidableEq, Repr

/-- `x[X]`, signed (10_state.md R12). -/
def RegFile.posX (r : RegFile) : Int := r.x.toInt

/-- `x[Y]`, signed (10_state.md R12). -/
def RegFile.posY (r : RegFile) : Int := r.y.toInt

/-- `x[W]` (10_state.md R14). -/
def RegFile.width (r : RegFile) : Nat := r.w.toNat

/-- `x[H]` (10_state.md R14). -/
def RegFile.height (r : RegFile) : Nat := r.h.toNat

/-- `x[SRC_W]` (10_state.md R16). -/
def RegFile.srcWidth (r : RegFile) : Nat := r.srcW.toNat

/-- `x[SRC_H]` (10_state.md R16). -/
def RegFile.srcHeight (r : RegFile) : Nat := r.srcH.toNat

/-- `x[DST_W]` (10_state.md R17). -/
def RegFile.dstWidth (r : RegFile) : Nat := r.dstW.toNat

/-- `x[DST_H]` (10_state.md R17). -/
def RegFile.dstHeight (r : RegFile) : Nat := r.dstH.toNat

/-- The four channel fields of a `COLOR` word (10_state.md R13). -/
def unpackColor (w : Word) : Color where
  r := w.extractLsb' 0 8
  g := w.extractLsb' 8 8
  b := w.extractLsb' 16 8
  a := w.extractLsb' 24 8

/-- The colour `(x[COLOR].r, x[COLOR].g, x[COLOR].b, x[COLOR].a)`. -/
def RegFile.ink (r : RegFile) : Color := unpackColor r.color

/-- `InCanvas(x, y)` (40_blend.md R81). -/
def inCanvas (x y : Int) : Bool :=
  0 ≤ x && x < Config.canvasW && 0 ≤ y && y < Config.canvasH

/-- The byte offset of pixel `(x, y)` of the canvas in the framebuffer, `(y * 1280 + x) * 4` (20_memory.md R41). -/
def pixelOffset (x y : Int) : Nat := (y.toNat * Config.canvasW + x.toNat) * Config.fbBpp

/-- `FbAddr(x, y)` for a framebuffer at `fb` (20_memory.md R41, 40_blend.md R81). -/
def pixelAddr (fb : Addr) (x y : Int) : Addr := addrPlus fb (pixelOffset x y)

/-- The address of the coverage byte at `(col, row)` of a block `w` wide (20_memory.md R42, 40_blend.md R89). -/
def coverageAddr (src : Addr) (w col row : Nat) : Addr := addrPlus src (row * w + col)

/-- Bytes per pixel of a format (30_encoding.md R64). -/
def bpp : PixelFormat → Nat
  | .rgb24 => 3
  | .rgba32 => 4
  | .bgr24 => 3
  | .abgr32 => 4

/-- The address of byte 0 of source pixel `(col, row)` of an image `w` wide (41_blit.md R106). -/
def imageAddr (fmt : PixelFormat) (src : Addr) (w col row : Nat) : Addr := addrPlus src ((row * w + col) * bpp fmt)

/-- `Convert(fmt, b)`, the channel table: `b k` is the raw byte `bk` (41_blit.md R100). -/
def convert (fmt : PixelFormat) (b : Nat → Byte) : Color :=
  match fmt with
  | .rgb24 => { r := b 0, g := b 1, b := b 2, a := 255 }
  | .rgba32 => { r := b 0, g := b 1, b := b 2, a := b 3 }
  | .bgr24 => { r := b 2, g := b 1, b := b 0, a := 255 }
  | .abgr32 => { r := b 3, g := b 2, b := b 1, a := b 0 }

/-- The address of channel `k` of the pixel at `(col, row)` of a resampler image `w` wide (42_resize.md R110). -/
def sampleAddr (base : Addr) (w col row k : Nat) : Addr := addrPlus base ((row * w + col) * Config.rsChannels + k)

/-- The length of the coverage region (20_memory.md R47). -/
def RegFile.coverageBytes (r : RegFile) : Nat := r.width * r.height

/-- The length of the BLIT source region (20_memory.md R48). -/
def RegFile.imageBytes (r : RegFile) (fmt : PixelFormat) : Nat := r.width * r.height * bpp fmt

/-- The length of the RESIZE source region (20_memory.md R49). -/
def RegFile.resizeSrcBytes (r : RegFile) : Nat := r.srcWidth * r.srcHeight * Config.rsChannels

/-- The length of the RESIZE destination region (20_memory.md R49). -/
def RegFile.resizeDstBytes (r : RegFile) : Nat := r.dstWidth * r.dstHeight * Config.rsChannels

/-- The region a command may read from a source: base and length (20_memory.md R47 to R49; 10_state.md R30). -/
def sourceRegion (i : Instr) (r : RegFile) : Addr × Nat :=
  match i with
  | .pblend => (r.srcAddr, 0)
  | .fill => (r.srcAddr, 0)
  | .fillb => (r.srcAddr, 0)
  | .shadow => (r.srcAddr, 0)
  | .cblend => (r.srcAddr, r.coverageBytes)
  | .blitRgb24 => (r.srcAddr, r.imageBytes .rgb24)
  | .blitRgba32 => (r.srcAddr, r.imageBytes .rgba32)
  | .blitBgr24 => (r.srcAddr, r.imageBytes .bgr24)
  | .blitAbgr32 => (r.srcAddr, r.imageBytes .abgr32)
  | .resize => (r.srcAddr, r.resizeSrcBytes)

/-- The region a command may write: base and length (20_memory.md R46, R49; 10_state.md R30). -/
def writtenRegion (i : Instr) (r : RegFile) : Addr × Nat :=
  match i with
  | .pblend => (r.fbAddr, Config.fbBytes)
  | .fill => (r.fbAddr, Config.fbBytes)
  | .fillb => (r.fbAddr, Config.fbBytes)
  | .shadow => (r.fbAddr, Config.fbBytes)
  | .cblend => (r.fbAddr, Config.fbBytes)
  | .blitRgb24 => (r.fbAddr, Config.fbBytes)
  | .blitRgba32 => (r.fbAddr, Config.fbBytes)
  | .blitBgr24 => (r.fbAddr, Config.fbBytes)
  | .blitAbgr32 => (r.fbAddr, Config.fbBytes)
  | .resize => (r.dstAddr, r.resizeDstBytes)

/-- The host's launch obligations hold: the source region shares no byte with the written region
(70_reset_and_hazards.md R155), and the written region does not wrap onto itself (R158). -/
def launchDefined (i : Instr) (r : RegFile) : Bool :=
  !regionsOverlap (sourceRegion i r).1 (sourceRegion i r).2 (writtenRegion i r).1 (writtenRegion i r).2 &&
    decide ((writtenRegion i r).2 ≤ 2 ^ 32)

/-- The end of a command that reads a source buffer. Where the launch obligations hold, memory is what the pseudocode
gives, `m`; where they do not, the bytes of the two regions are free values and all else is as the rules say
(93_implementation_defined.md U1, U9; log 4). -/
def finishFrom (i : Instr) (m : Memory) (s : State) : State :=
  if launchDefined i s.regs then s.setMem m
  else
    (s.freeRegion (sourceRegion i s.regs).1 (sourceRegion i s.regs).2).freeRegion
      (writtenRegion i s.regs).1 (writtenRegion i s.regs).2

end Sys2Proof.Machine
end

