-- ==== Sys2Proof/Machine/Pixel.lean ====
section
/-! DEFINITION. The blend arithmetic and the two pixel primitives (40_blend.md R80 to R83). -/

namespace Sys2Proof.Machine

/-- `Blend8(f, c, alpha)`: `f` in the framebuffer, `c` incoming, truncating division by 255 (40_blend.md R80). -/
def blend8 (f c alpha : Byte) : Byte :=
  BitVec.ofNat 8 ((c.toNat * alpha.toNat + f.toNat * (255 - alpha.toNat)) / 255)

/-- The four bytes of a pixel, in memory order (20_memory.md R41). -/
def pixelBytes (c : Color) : List Byte := [c.r, c.g, c.b, c.a]

/-- The pixel at an address (20_memory.md R41). -/
def loadPixel (m : Memory) (p : Addr) : Color where
  r := m.read p
  g := m.read (addrPlus p 1)
  b := m.read (addrPlus p 2)
  a := m.read (addrPlus p 3)

/-- Memory with a pixel stored at an address (20_memory.md R41). -/
def storePixel (m : Memory) (p : Addr) (c : Color) : Memory := m.writeBytes p (pixelBytes c)

/-- The pixel that blending `c` onto the pixel `f` gives: r, g, b with the weight `c.a`, alpha forced to 255
(40_blend.md R82). -/
def blendPixel (f c : Color) : Color where
  r := blend8 f.r c.r c.a
  g := blend8 f.g c.g c.a
  b := blend8 f.b c.b c.a
  a := 255

/-- `PutBlend(x, y, c)` on the framebuffer at `fb` (40_blend.md R82). -/
def putBlend (fb : Addr) (x y : Int) (c : Color) (m : Memory) : Memory :=
  if inCanvas x y then storePixel m (pixelAddr fb x y) (blendPixel (loadPixel m (pixelAddr fb x y)) c) else m

/-- `PutRaw(x, y, c)` on the framebuffer at `fb` (40_blend.md R83). -/
def putRaw (fb : Addr) (x y : Int) (c : Color) (m : Memory) : Memory :=
  if inCanvas x y then storePixel m (pixelAddr fb x y) c else m

/-- The pixel `(x, y)` of the framebuffer `FB_ADDR` points at. -/
def State.pixel (s : State) (x y : Int) : Color := loadPixel s.mem (pixelAddr s.regs.fbAddr x y)

end Sys2Proof.Machine
end

