-- ==== Sys2Proof/Machine/Blend.lean ====
section
/-! DEFINITION. The alpha_blender unit: PBLEND, FILL, FILLB, SHADOW, CBLEND (40_blend.md R85 to R89). None can fail or set a
flag (R92). -/

namespace Sys2Proof.Machine

/-- `PBLEND` (40_blend.md R85). -/
def execPblend (s : State) : Host.Outcome State Fault Refusal :=
  .next (s.setMem (putBlend s.regs.fbAddr s.regs.posX s.regs.posY s.regs.ink s.mem))

/-- `FILL` (40_blend.md R86). -/
def execFill (s : State) : Host.Outcome State Fault Refusal :=
  .next (s.setMem
    (forRect s.regs.width s.regs.height
      (fun col row => putRaw s.regs.fbAddr (s.regs.posX + col) (s.regs.posY + row) s.regs.ink) s.mem))

/-- `FILLB` (40_blend.md R87). -/
def execFillb (s : State) : Host.Outcome State Fault Refusal :=
  .next (s.setMem
    (forRect s.regs.width s.regs.height
      (fun col row => putBlend s.regs.fbAddr (s.regs.posX + col) (s.regs.posY + row) s.regs.ink) s.mem))

/-- The alpha of row `k` of the shadow band, `(base * (4 - k)) div 4` (40_blend.md R88). -/
def shadowAlpha (base : Byte) (k : Nat) : Byte :=
  BitVec.ofNat 8 (base.toNat * (Config.shadowRows - k) / Config.shadowRows)

/-- The colour of row `k` of the shadow band (40_blend.md R88). -/
def RegFile.shadowInk (r : RegFile) (k : Nat) : Color := { r.ink with a := shadowAlpha r.ink.a k }

/-- Row `k` of the band: the columns `X + k .. X + W - 1 - k`, none when `W <= 2k` (40_blend.md R88). -/
def shadowRow (r : RegFile) (k : Nat) (m : Memory) : Memory :=
  forRange (r.width - 2 * k)
    (fun j => putBlend r.fbAddr (r.posX + k + j) (r.posY + r.height + k) (r.shadowInk k)) m

/-- `SHADOW` (40_blend.md R88). -/
def execShadow (s : State) : Host.Outcome State Fault Refusal :=
  .next (s.setMem (forRange Config.shadowRows (fun k => shadowRow s.regs k) s.mem))

/-- The colour CBLEND blends at `(col, row)`: `COLOR`'s r, g, b with the coverage byte as alpha (40_blend.md R89). -/
def coverInk (r : RegFile) (col row : Nat) (m : Memory) : Color :=
  { r.ink with a := m.read (coverageAddr r.srcAddr r.width col row) }

/-- The loops of `CBLEND` (40_blend.md R89). -/
def coverLoop (r : RegFile) (m : Memory) : Memory :=
  forRect r.width r.height
    (fun col row m => putBlend r.fbAddr (r.posX + col) (r.posY + row) (coverInk r col row m) m) m

/-- `CBLEND` (40_blend.md R89). -/
def execCblend (s : State) : Host.Outcome State Fault Refusal :=
  .next (finishFrom .cblend (coverLoop s.regs s.mem) s)

end Sys2Proof.Machine
end

