-- ==== Sys2Proof/Machine/Blit.lean ====
section
/-! DEFINITION. The image_format_converter unit: BLIT.RGB24, BLIT.RGBA32, BLIT.BGR24, BLIT.ABGR32 (41_blit.md R101 to R104).
None can fail (R107); every pixel goes through PutBlend (R108). -/

namespace Sys2Proof.Machine

/-- The colour of source pixel `(col, row)` (41_blit.md R100, R106). -/
def sourcePixel (fmt : PixelFormat) (r : RegFile) (col row : Nat) (m : Memory) : Color :=
  convert fmt (fun k => m.read (addrPlus (imageAddr fmt r.srcAddr r.width col row) k))

/-- The loops the four commands share (41_blit.md R101 to R104). -/
def blitLoop (fmt : PixelFormat) (r : RegFile) (m : Memory) : Memory :=
  forRect r.width r.height
    (fun col row m => putBlend r.fbAddr (r.posX + col) (r.posY + row) (sourcePixel fmt r col row m) m) m

/-- `BLIT.RGB24` (41_blit.md R101). -/
def execBlitRgb24 (s : State) : Host.Outcome State Fault Refusal :=
  .next (finishFrom .blitRgb24 (blitLoop .rgb24 s.regs s.mem) s)

/-- `BLIT.RGBA32` (41_blit.md R102). -/
def execBlitRgba32 (s : State) : Host.Outcome State Fault Refusal :=
  .next (finishFrom .blitRgba32 (blitLoop .rgba32 s.regs s.mem) s)

/-- `BLIT.BGR24` (41_blit.md R103). -/
def execBlitBgr24 (s : State) : Host.Outcome State Fault Refusal :=
  .next (finishFrom .blitBgr24 (blitLoop .bgr24 s.regs s.mem) s)

/-- `BLIT.ABGR32` (41_blit.md R104). -/
def execBlitAbgr32 (s : State) : Host.Outcome State Fault Refusal :=
  .next (finishFrom .blitAbgr32 (blitLoop .abgr32 s.regs s.mem) s)

end Sys2Proof.Machine
end

