-- ==== Sys2Proof/Machine/Resize.lean ====
section
/-! DEFINITION. The bicubic_image_resampler unit: the primitives GetPix, Cubic and Q8 and the command RESIZE
(42_resize.md R111 to R115). `cubic` and `q8` are the rules' exact rationals; the machine runs the integer form of R115,
`cubicQ8`, and that the two agree is stated as an obligation (log 14). -/

namespace Sys2Proof.Machine

/-- `GetPix(yy, xx, k)` with zero padding (42_resize.md R111). -/
def getPix (r : RegFile) (m : Memory) (yy xx : Int) (k : Nat) : Byte :=
  if 0 ≤ xx ∧ xx < r.srcWidth ∧ 0 ≤ yy ∧ yy < r.srcHeight then
    m.read (sampleAddr r.srcAddr r.srcWidth xx.toNat yy.toNat k)
  else 0

/-- `Cubic(s0, s1, s2, s3, t)` as an exact rational (42_resize.md R112). -/
def cubic (s0 s1 s2 s3 : Int) (t : Rat) : Rat :=
  let d0 : Rat := s0 - s1
  let d2 : Rat := s2 - s1
  let d3 : Rat := s3 - s1
  let a0 : Rat := s1
  let a1 : Rat := -1 / 3 * d0 + d2 - 1 / 6 * d3
  let a2 : Rat := 1 / 2 * d0 + 1 / 2 * d2
  let a3 : Rat := -1 / 6 * d0 - 1 / 2 * d2 + 1 / 6 * d3
  a0 + a1 * t + a2 * t ^ 2 + a3 * t ^ 3

/-- `Q8(v)` of an exact rational (42_resize.md R113). -/
def q8 (v : Rat) : Byte :=
  if v < 0 then 0 else if 255 ≤ v then 255 else BitVec.ofNat 8 v.floor.toNat

/-- The numerator `N` of `Cubic(s0, s1, s2, s3, n/D) = N / (6 * D^3)` (42_resize.md R115). -/
def cubicNum (s0 s1 s2 s3 : Int) (n D : Nat) : Int :=
  6 * s1 * D ^ 3 + (-2 * (s0 - s1) + 6 * (s2 - s1) - (s3 - s1)) * n * D ^ 2
    + (3 * (s0 - s1) + 3 * (s2 - s1)) * n ^ 2 * D + (-(s0 - s1) - 3 * (s2 - s1) + (s3 - s1)) * n ^ 3

/-- `Q8` of the fraction `N / M` with `M > 0`, in integers (42_resize.md R115). -/
def q8Frac (N : Int) (M : Nat) : Byte :=
  if N < 0 then 0 else if 255 * (M : Int) ≤ N then 255 else BitVec.ofNat 8 (N / M).toNat

/-- `Q8(Cubic(s0, s1, s2, s3, n/D))` in the integer form (42_resize.md R115). -/
def cubicQ8 (s0 s1 s2 s3 : Byte) (n D : Nat) : Byte :=
  q8Frac (cubicNum s0.toNat s1.toNat s2.toNat s3.toNat n D) (6 * D ^ 3)

/-- The integer part of a source coordinate, `(j * sw) div dw` (42_resize.md R114). -/
def coordInt (j sw dw : Nat) : Nat := j * sw / dw

/-- The numerator over `dw` of the fractional part, `(j * sw) mod dw` (42_resize.md R114). -/
def coordNum (j sw dw : Nat) : Nat := j * sw % dw

/-- The first pass: the sample of source row `z` at destination column `j`, along x (42_resize.md R114). -/
def rowSample (r : RegFile) (m : Memory) (z : Int) (j k : Nat) : Byte :=
  let x : Int := coordInt j r.srcWidth r.dstWidth
  cubicQ8 (getPix r m z (x - 1) k) (getPix r m z x k) (getPix r m z (x + 1) k) (getPix r m z (x + 2) k)
    (coordNum j r.srcWidth r.dstWidth) r.dstWidth

/-- The output byte of destination row `i`, column `j`, channel `k`: the second pass, along y, over the four first-pass
samples of rows `y - 1 .. y + 2` (42_resize.md R114). -/
def outSample (r : RegFile) (m : Memory) (i j k : Nat) : Byte :=
  let y : Int := coordInt i r.srcHeight r.dstHeight
  cubicQ8 (rowSample r m (y - 1) j k) (rowSample r m y j k) (rowSample r m (y + 1) j k) (rowSample r m (y + 2) j k)
    (coordNum i r.srcHeight r.dstHeight) r.dstHeight

/-- The loops of `RESIZE` (42_resize.md R114). With an empty destination nothing runs (R120). -/
def resizeLoop (r : RegFile) (m : Memory) : Memory :=
  forRect r.dstWidth r.dstHeight
    (fun j i => forRange Config.rsChannels
      (fun k m => m.write (sampleAddr r.dstAddr r.dstWidth j i k) (outSample r m i j k))) m

/-- `RESIZE` (42_resize.md R114). -/
def execResize (s : State) : Host.Outcome State Fault Refusal :=
  .next (finishFrom .resize (resizeLoop s.regs s.mem) s)

end Sys2Proof.Machine
end

