-- ==== Sys2Proof/Machine/Dispatch.lean ====
section
/-! DEFINITION. One arm per command. -/

namespace Sys2Proof.Machine

def exec (i : Instr) (s : State) : Host.Outcome State Fault Refusal :=
  match i with
  | .pblend => Sys2Proof.Machine.execPblend s
  | .fill => Sys2Proof.Machine.execFill s
  | .fillb => Sys2Proof.Machine.execFillb s
  | .shadow => Sys2Proof.Machine.execShadow s
  | .cblend => Sys2Proof.Machine.execCblend s
  | .blitRgb24 => Sys2Proof.Machine.execBlitRgb24 s
  | .blitRgba32 => Sys2Proof.Machine.execBlitRgba32 s
  | .blitBgr24 => Sys2Proof.Machine.execBlitBgr24 s
  | .blitAbgr32 => Sys2Proof.Machine.execBlitAbgr32 s
  | .resize => Sys2Proof.Machine.execResize s

end Sys2Proof.Machine
end

