-- ==== Sys2Proof/Machine/Flags.lean ====
section
/-! DEFINITION. The one flag, `STATUS.ILL` (10_state.md R21): how the host reads it. No command reads or writes it and no
arithmetic records a flag; setting it is `State.raiseIllegal` and clearing it `State.ackIllegal`, both in Ops.lean. -/

namespace Sys2Proof.Machine

/-- What a host read of `STATUS` gives: `zext_32(STATUS.ILL)`, bits 31:1 read as 0 (10_state.md R21, R23). -/
def statusWord (r : RegFile) : Word := if r.ill then 1 else 0

end Sys2Proof.Machine
end

