-- ==== Sys2Proof/Machine/HostPort.lean ====
section
/-! DEFINITION. The host interface: the register window (10_state.md R11 to R25), running a command word, the host's memory
accesses, and the platform's reset. -/

namespace Sys2Proof.Machine

/-- The offset of a register in the window (10_state.md R11). -/
def regOffset : RegName → BitVec 6
  | .cmd => 0x00#6
  | .status => 0x04#6
  | .fbAddr => 0x08#6
  | .color => 0x0C#6
  | .x => 0x10#6
  | .y => 0x14#6
  | .w => 0x18#6
  | .h => 0x1C#6
  | .srcAddr => 0x20#6
  | .srcW => 0x24#6
  | .srcH => 0x28#6
  | .dstAddr => 0x2C#6
  | .dstW => 0x30#6
  | .dstH => 0x34#6

/-- The register at an aligned offset; offsets 0x38 and 0x3C hold nothing (10_state.md R11, R24). -/
def regAt (off : BitVec 6) : Option RegName :=
  match off.toNat with
  | 0x00 => some .cmd
  | 0x04 => some .status
  | 0x08 => some .fbAddr
  | 0x0C => some .color
  | 0x10 => some .x
  | 0x14 => some .y
  | 0x18 => some .w
  | 0x1C => some .h
  | 0x20 => some .srcAddr
  | 0x24 => some .srcW
  | 0x28 => some .srcH
  | 0x2C => some .dstAddr
  | 0x30 => some .dstW
  | 0x34 => some .dstH
  | _ => none

/-- The bits a 16-bit register keeps of a written word, `wdata[15:0]` (10_state.md R12, R14). -/
def lowHalf (wdata : Word) : Half := wdata.extractLsb' 0 16

/-- What a read of a register gives (10_state.md R23): `X` and `Y` sign-extended (R12), the other 16-bit registers
zero-extended (R14), `CMD` 0 (R19). -/
def readReg (r : RegFile) : RegName → Word
  | .cmd => 0
  | .status => statusWord r
  | .fbAddr => r.fbAddr
  | .color => r.color
  | .x => r.x.signExtend 32
  | .y => r.y.signExtend 32
  | .w => r.w.zeroExtend 32
  | .h => r.h.zeroExtend 32
  | .srcAddr => r.srcAddr
  | .srcW => r.srcW.zeroExtend 32
  | .srcH => r.srcH.zeroExtend 32
  | .dstAddr => r.dstAddr
  | .dstW => r.dstW.zeroExtend 32
  | .dstH => r.dstH.zeroExtend 32

/-- The value the host reads at an aligned offset (10_state.md R23, R24). -/
def hostReadValue (r : RegFile) (off : BitVec 6) : Word :=
  match regAt off with
  | some n => readReg r n
  | none => 0

/-- Running a command word (30_encoding.md R61): the command it selects, or `IllegalCommand` (60_exceptions.md R131). -/
def runCommand (word : Word) (s : State) : Host.Outcome State Fault Refusal :=
  match decode word with
  | .ok i => exec i s
  | .error (.illegalCommand _) => .next s.raiseIllegal

/-- A write of `wdata` to a register (10_state.md R22): `CMD` runs a command, `STATUS` acknowledges, a storage register
stores the bits it keeps (R12 to R18). -/
def writeReg (n : RegName) (wdata : Word) (s : State) : Host.Outcome State Fault Refusal :=
  match n with
  | .cmd => runCommand wdata s
  | .status => .next (s.ackIllegal wdata)
  | .fbAddr => .next (s.setRegs { s.regs with fbAddr := wdata })
  | .color => .next (s.setRegs { s.regs with color := wdata })
  | .x => .next (s.setRegs { s.regs with x := lowHalf wdata })
  | .y => .next (s.setRegs { s.regs with y := lowHalf wdata })
  | .w => .next (s.setRegs { s.regs with w := lowHalf wdata })
  | .h => .next (s.setRegs { s.regs with h := lowHalf wdata })
  | .srcAddr => .next (s.setRegs { s.regs with srcAddr := wdata })
  | .srcW => .next (s.setRegs { s.regs with srcW := lowHalf wdata })
  | .srcH => .next (s.setRegs { s.regs with srcH := lowHalf wdata })
  | .dstAddr => .next (s.setRegs { s.regs with dstAddr := wdata })
  | .dstW => .next (s.setRegs { s.regs with dstW := lowHalf wdata })
  | .dstH => .next (s.setRegs { s.regs with dstH := lowHalf wdata })

/-- `HostWrite(off, wdata)` at an aligned offset (10_state.md R22); offsets that hold nothing ignore it (R24). -/
def hostWrite (off : BitVec 6) (wdata : Word) (s : State) : Host.Outcome State Fault Refusal :=
  match regAt off with
  | some n => writeReg n wdata s
  | none => .next s

/-- `HostRead(off)` at an aligned offset: the value goes to the host, no register or memory changes (10_state.md R23). -/
def hostRead (off : BitVec 6) (s : State) : State := s.logRead (.word (hostReadValue s.regs off))

/-- Reset asserted while the command `i` runs, with `done` the state the command would have ended in: each byte of the
written region is old or new, every other byte of memory is old, the registers are reset
(70_reset_and_hazards.md R151, log 9). -/
def abandon (i : Instr) (done s : State) : State :=
  ((s.setMem (mixRegion s.mem done.mem (writtenRegion i s.regs).1 (writtenRegion i s.regs).2 done.freeCount)).useFree
    (done.freeCount - s.freeCount + (writtenRegion i s.regs).2)).blockReset

/-- A `CMD` write of `word` that a reset interrupts (70_reset_and_hazards.md R151). An illegal word runs no command, so
only the reset is left of it. -/
def resetDuring (word : Word) (s : State) : Host.Outcome State Fault Refusal :=
  match decode word with
  | .ok i =>
    match exec i s with
    | .next done => .next (abandon i done s)
    | .fault f => .fault f
    | .refused r => .refused r
  | .error (.illegalCommand _) => .next s.blockReset

/-- One action of the host or the platform, to its end (20_memory.md R51). A host access that is not an aligned 32-bit
access is UNPREDICTABLE and refused (10_state.md R25, log 6). -/
def act (a : HostAction) (s : State) : Host.Outcome State Fault Refusal :=
  match a with
  | .regWrite off width wdata =>
    if accessDefined off width then hostWrite off wdata s else .refused (.unpredictableHostAccess off width)
  | .regRead off width =>
    if accessDefined off width then .next (hostRead off s) else .refused (.unpredictableHostAccess off width)
  | .memWrite addr v => .next (s.setMem (s.mem.write addr v))
  | .memRead addr => .next (s.logRead (.byte (s.mem.read addr)))
  | .reset => .next s.blockReset
  | .resetDuring word => resetDuring word s

/-- One step: the host's next action; with none left the block is idle and holds its state (10_state.md R10,
60_exceptions.md R144). -/
def stepBody (s : State) : Host.Outcome State Fault Refusal :=
  match s.host with
  | [] => .next s
  | a :: rest => act a (s.setHost rest)

/-- The host action that writes a command word to `CMD` (10_state.md R19). -/
def cmdWrite (word : Word) : HostAction := .regWrite (regOffset .cmd) .word word

end Sys2Proof.Machine
end

