-- ==== Sys2Proof/Machine/Step.lean ====
section
/-! DEFINITION. The step, and placing a command word where the step takes its next transaction from. -/

namespace Sys2Proof.Machine

/-- One step of the block with its host: the host's next transaction, executed to its end (20_memory.md R51). -/
def step : State → Host.Outcome State Fault Refusal := fun s => stepBody s

/-- `s` with a write of the word to `CMD` as the host's next transaction: the only way a command reaches the block
(20_memory.md R57, log 1). -/
def State.withFetchWord (s : State) (nbits w : Nat) : State := s.setHost (cmdWrite (tableWord nbits w) :: s.host)

end Sys2Proof.Machine
end

