-- ==== Sys2Proof/Machine/Program.lean ====
section
/-! DEFINITION. The assembler notation of 30_encoding.md R68 and the pseudo-instructions of R69: from lines to the host's
transactions. -/

namespace Sys2Proof.Machine

/-- The 32 bits of a written number; a negative one stands for its two's complement pattern (30_encoding.md R68). -/
def valueWord (v : Int) : Word := BitVec.ofInt 32 v

/-- `color(r, g, b, a)`, the `COLOR` word of a colour (30_encoding.md R69, 10_state.md R13). -/
def packColor (c : Color) : Word :=
  BitVec.ofNat 32 (c.r.toNat + 256 * c.g.toNat + 65536 * c.b.toNat + 16777216 * c.a.toNat)

/-- The transaction of a line (30_encoding.md R68). -/
def assemble : AsmLine → HostAction
  | .wr reg v => .regWrite (regOffset reg) .word (valueWord v)
  | .rd reg => .regRead (regOffset reg) .word
  | .cmd i => cmdWrite (encode i)
  | .cmdWord word => cmdWrite word

/-- The writes of a rectangle's position, size and colour (30_encoding.md R69). -/
def rectLines (x y w h color : Int) : List AsmLine := [.wr .x x, .wr .y y, .wr .w w, .wr .h h, .wr .color color]

/-- The expansion of a pseudo-instruction (30_encoding.md R69). -/
def expand : Pseudo → List AsmLine
  | .setfb addr => [.wr .fbAddr addr]
  | .pblend x y color => [.wr .x x, .wr .y y, .wr .color color, .cmd .pblend]
  | .fill x y w h color => rectLines x y w h color ++ [.cmd .fill]
  | .fillb x y w h color => rectLines x y w h color ++ [.cmd .fillb]
  | .shadow x y w h color => rectLines x y w h color ++ [.cmd .shadow]
  | .cblend x y w h addr color =>
    [.wr .x x, .wr .y y, .wr .w w, .wr .h h, .wr .srcAddr addr, .wr .color color, .cmd .cblend]
  | .drawImage x y w h addr fmt => [.wr .x x, .wr .y y, .wr .w w, .wr .h h, .wr .srcAddr addr, .cmd (blitOf fmt)]
  | .resize src sw sh dst dw dh =>
    [.wr .srcAddr src, .wr .srcW sw, .wr .srcH sh, .wr .dstAddr dst, .wr .dstW dw, .wr .dstH dh, .cmd .resize]
  | .clrill => [.wr .status 1]

/-- The host's transactions of a sequence of lines. -/
def assembleAll (l : List AsmLine) : List HostAction := l.map assemble

end Sys2Proof.Machine
end

