-- ==== Sys2Proof/Safety.lean ====
section
/-! DEFINITION. The terms claims use: the invariant of every state, and the host's obligations for a launch and for a run. -/

namespace Sys2Proof.Machine

/-- The invariant: the memory keeps its canonical form. Register widths hold by their types. -/
abbrev State.Inv (s : State) : Prop := s.mem.wf

/-- The launch obligations of a command in a state: its source region shares no byte with the region it writes
(70_reset_and_hazards.md R155) and that region does not wrap onto itself (R158). -/
abbrev State.LaunchOk (s : State) (i : Instr) : Prop := launchDefined i s.regs = true

/-- The step to come keeps the host's obligations: a defined access (10_state.md R25), and a launch that meets the
obligations of R155 and R158. -/
def State.StepOk (s : State) : Prop :=
  ∀ a rest, s.host = a :: rest →
    a.wellFormed = true ∧ ∀ word i, a = cmdWrite word → decode word = .ok i → s.LaunchOk i

/-- A state that some number of steps from `s` leads to. -/
inductive Reaches : State → State → Prop where
  | refl (s : State) : Reaches s s
  | step {s t u : State} (h : step s = .next t) (hr : Reaches t u) : Reaches s u

/-- `n` steps, stopping at the first refusal (a run, 70_reset_and_hazards.md R162). -/
def runSteps : Nat → State → Host.Outcome State Fault Refusal
  | 0, s => .next s
  | n + 1, s =>
    match step s with
    | .next t => runSteps n t
    | .fault f => .fault f
    | .refused r => .refused r

/-- The pixel `(px, py)` lies in the rectangle the registers `X`, `Y`, `W`, `H` give (40_blend.md R84). -/
def RegFile.InRect (r : RegFile) (px py : Int) : Prop :=
  r.posX ≤ px ∧ px < r.posX + r.width ∧ r.posY ≤ py ∧ py < r.posY + r.height

/-- The pixel `(px, py)` lies in row `k` of the shadow band (40_blend.md R88). -/
def RegFile.InShadowRow (r : RegFile) (k : Nat) (px py : Int) : Prop :=
  k < 4 ∧ r.posX + k ≤ px ∧ px ≤ r.posX + r.width - 1 - k ∧ py = r.posY + r.height + k

/-- `a` is the address of a byte of the pixel `(px, py)`, which lies in the canvas (20_memory.md R41). -/
def RegFile.PixelByte (r : RegFile) (px py : Int) (a : Addr) : Prop :=
  inCanvas px py = true ∧ ∃ k < 4, a = addrPlus (pixelAddr r.fbAddr px py) k

/-- The tap at distance `d` from the centre coordinate `x` of an image `w` long lies outside the image, as 42_resize.md R117
says when: the tap before at the first coordinate, the tap after at the last, the tap after that at the last two. -/
def tapOutside (d : Int) (x w : Nat) : Prop :=
  (d = -1 ∧ x = 0) ∨ (d = 1 ∧ x + 1 = w) ∨ (d = 2 ∧ w ≤ x + 2)

/-- The registers a command reads, the last column of the table of 10_state.md R11. -/
def readBy : Instr → List RegName
  | .pblend => [.fbAddr, .color, .x, .y]
  | .fill => [.fbAddr, .color, .x, .y, .w, .h]
  | .fillb => [.fbAddr, .color, .x, .y, .w, .h]
  | .shadow => [.fbAddr, .color, .x, .y, .w, .h]
  | .cblend => [.fbAddr, .color, .x, .y, .w, .h, .srcAddr]
  | .blitRgb24 => [.fbAddr, .x, .y, .w, .h, .srcAddr]
  | .blitRgba32 => [.fbAddr, .x, .y, .w, .h, .srcAddr]
  | .blitBgr24 => [.fbAddr, .x, .y, .w, .h, .srcAddr]
  | .blitAbgr32 => [.fbAddr, .x, .y, .w, .h, .srcAddr]
  | .resize => [.srcAddr, .srcW, .srcH, .dstAddr, .dstW, .dstH]

/-- The first pass of 42_resize.md R114 in the exact rationals of R112 and R113: `C` of source row `z`. -/
def exactRow (r : RegFile) (m : Memory) (z : Int) (j k : Nat) : Byte :=
  let x : Int := (j * r.srcWidth / r.dstWidth : Nat)
  let dx : Rat := (j * r.srcWidth % r.dstWidth : Nat) / (r.dstWidth : Rat)
  q8 (cubic (getPix r m z (x - 1) k).toNat (getPix r m z x k).toNat (getPix r m z (x + 1) k).toNat
    (getPix r m z (x + 2) k).toNat dx)

/-- The output byte of 42_resize.md R114 in the exact rationals of R112 and R113. -/
def exactOut (r : RegFile) (m : Memory) (i j k : Nat) : Byte :=
  let y : Int := (i * r.srcHeight / r.dstHeight : Nat)
  let dy : Rat := (i * r.srcHeight % r.dstHeight : Nat) / (r.dstHeight : Rat)
  q8 (cubic (exactRow r m (y - 1) j k).toNat (exactRow r m y j k).toNat (exactRow r m (y + 1) j k).toNat
    (exactRow r m (y + 2) j k).toNat dy)

end Sys2Proof.Machine
end

