-- ==== Sys2Proof/Certificates/Slice0/Obligations.lean ====
section
/-! DEFINITION. The statements for the provers. A statement that names `host` takes the host's next transaction from the
model's own list of transactions to come (log 1). -/

open Sys2Proof Sys2Proof.Machine

/-! ## Command words -/

/-- Each word of the opcode map selects its command (30_encoding.md R62). -/
def Obligations.CommandWordsDecode : Prop :=
  decode 0x00000001#32 = .ok .pblend ∧ decode 0x00000002#32 = .ok .fill ∧ decode 0x00000003#32 = .ok .fillb ∧
  decode 0x00000004#32 = .ok .shadow ∧ decode 0x00000005#32 = .ok .cblend ∧
  decode 0x00000010#32 = .ok .blitRgb24 ∧ decode 0x00000011#32 = .ok .blitRgba32 ∧
  decode 0x00000012#32 = .ok .blitBgr24 ∧ decode 0x00000013#32 = .ok .blitAbgr32 ∧
  decode 0x00000020#32 = .ok .resize

/-- Every 32-bit word selects exactly one command, and then it is that command's word, or it is illegal, and then it is
no command's word (30_encoding.md R61). -/
def Obligations.EveryWordIsOneCommandOrIllegal : Prop :=
  ∀ w : Word,
    (∃ i, decode w = .ok i ∧ w = encode i ∧ ∀ j, w = encode j → j = i) ∨
    (decode w = .error (.illegalCommand w) ∧ ∀ i, w ≠ encode i)

/-- Decoding an encoded command gives the command back. -/
def Obligations.DecodeOfEncode : Prop := ∀ i : Instr, i.wellFormed = true → decode (encode i) = .ok i

/-- The illegal words are those with a bit of 31:8 set and those whose `OP` is no command's (30_encoding.md R65). -/
def Obligations.IllegalWords : Prop :=
  ∀ w : Word, decode w = .error (.illegalCommand w) ↔
    (w.toNat / 256 ≠ 0 ∨ w.toNat % 256 ∉ [0x01, 0x02, 0x03, 0x04, 0x05, 0x10, 0x11, 0x12, 0x13, 0x20])

/-- The inner structure of the BLIT opcodes: bits 31:8 zero, `OP[7:2] = 0b000100`, `OP[1:0] = FMT` with the codes 0 to 3
in order, and `FMT[0] = 1` exactly for the 4-byte formats (30_encoding.md R60, R64). -/
def Obligations.BlitWordsCarryTheFormat : Prop :=
  fmtCode .rgb24 = 0#2 ∧ fmtCode .rgba32 = 1#2 ∧ fmtCode .bgr24 = 2#2 ∧ fmtCode .abgr32 = 3#2 ∧
  ∀ f : PixelFormat, encode (blitOf f) = 0#24 ++ (0b000100#6 ++ fmtCode f) ∧
    (bpp f = 3 ∨ bpp f = 4) ∧ ((fmtCode f).getLsbD 0 = true ↔ bpp f = 4)

/-! ## Steps and the host interface -/

/-- A step whose transaction is a `CMD` write of a command's word runs that command, with the registers held at that
moment (the queue of transactions is the model's choice, log 1); a word placed by `withFetchWord` is run by the very next
step. -/
def Obligations.StepRunsDecodedCommand : Prop :=
  (∀ (s : State) (rest : List HostAction) (word : Word) (i : Instr),
    s.host = cmdWrite word :: rest → decode word = .ok i → step s = exec i (s.setHost rest)) ∧
  ∀ (s : State) (nbits w : Nat) (i : Instr),
    decodeTableWord nbits w = some i → step (s.withFetchWord nbits w) = exec i s

/-- An illegal word sets `STATUS.ILL` and does nothing else (60_exceptions.md R131). -/
def Obligations.IllegalWordSetsIllOnly : Prop :=
  ∀ (s : State) (rest : List HostAction) (word : Word),
    s.host = cmdWrite word :: rest → (∀ i, decode word ≠ .ok i) →
    step s = .next ((s.setHost rest).setRegs { s.regs with ill := true })

/-- `X` and `Y` keep `wdata[15:0]`, read as a two's complement integer, and read back sign-extended (10_state.md R12);
nothing else changes. -/
def Obligations.PositionWritesKeepSixteenSignedBits : Prop :=
  ∀ p ∈ ([(0x10#6, RegFile.x, RegFile.posX, fun r v => { r with x := v }),
          (0x14#6, RegFile.y, RegFile.posY, fun r v => { r with y := v })] :
        List (BitVec 6 × (RegFile → Half) × (RegFile → Int) × (RegFile → Half → RegFile))),
  ∀ (s : State) (rest : List HostAction) (v : Word), s.host = .regWrite p.1 .word v :: rest →
    ∃ t, step s = .next t ∧ t = (s.setHost rest).setRegs (p.2.2.2 s.regs (p.2.1 t.regs)) ∧
      p.2.1 t.regs = v.extractLsb' 0 16 ∧
      p.2.2.1 t.regs = ((v.toNat % 65536 : Nat) : Int) - (if v.getLsbD 15 then 65536 else 0) ∧
      -32768 ≤ p.2.2.1 t.regs ∧ p.2.2.1 t.regs ≤ 32767 ∧
      (hostReadValue t.regs p.1).extractLsb' 0 16 = v.extractLsb' 0 16 ∧
      ∀ b, 16 ≤ b → b < 32 → (hostReadValue t.regs p.1).getLsbD b = v.getLsbD 15

/-- The six size registers keep `wdata[15:0]`, unsigned, and read back zero-extended (10_state.md R14, R16, R17);
nothing else changes. -/
def Obligations.SizeWritesKeepSixteenUnsignedBits : Prop :=
  ∀ p ∈ ([(0x18#6, RegFile.w, fun r v => { r with w := v }), (0x1C#6, RegFile.h, fun r v => { r with h := v }),
          (0x24#6, RegFile.srcW, fun r v => { r with srcW := v }), (0x28#6, RegFile.srcH, fun r v => { r with srcH := v }),
          (0x30#6, RegFile.dstW, fun r v => { r with dstW := v }), (0x34#6, RegFile.dstH, fun r v => { r with dstH := v })] :
        List (BitVec 6 × (RegFile → Half) × (RegFile → Half → RegFile))),
  ∀ (s : State) (rest : List HostAction) (v : Word), s.host = .regWrite p.1 .word v :: rest →
    ∃ t, step s = .next t ∧ t = (s.setHost rest).setRegs (p.2.2 s.regs (p.2.1 t.regs)) ∧
      (p.2.1 t.regs).toNat = v.toNat % 65536 ∧ (hostReadValue t.regs p.1).toNat = v.toNat % 65536

/-- `FB_ADDR`, `COLOR`, `SRC_ADDR` and `DST_ADDR` store all 32 bits and read them back; every value is legal
(10_state.md R13, R15, R17, R18); nothing else changes. -/
def Obligations.WordWritesKeepAllBits : Prop :=
  ∀ p ∈ ([(0x08#6, RegFile.fbAddr, fun r v => { r with fbAddr := v }), (0x0C#6, RegFile.color, fun r v => { r with color := v }),
          (0x20#6, RegFile.srcAddr, fun r v => { r with srcAddr := v }),
          (0x2C#6, RegFile.dstAddr, fun r v => { r with dstAddr := v })] :
        List (BitVec 6 × (RegFile → Word) × (RegFile → Word → RegFile))),
  ∀ (s : State) (rest : List HostAction) (v : Word), s.host = .regWrite p.1 .word v :: rest →
    ∃ t, step s = .next t ∧ t = (s.setHost rest).setRegs (p.2.2 s.regs v) ∧
      p.2.1 t.regs = v ∧ hostReadValue t.regs p.1 = v

/-- A write to `STATUS` clears `ILL` when its bit 0 is 1 and leaves it when that bit is 0; bits 31:1 do not matter, and
nothing else changes (10_state.md R21, R22). -/
def Obligations.StatusIsWriteOneToClear : Prop :=
  ∀ (s : State) (rest : List HostAction) (v : Word), s.host = .regWrite 0x04#6 .word v :: rest →
    step s = .next ((s.setHost rest).setRegs { s.regs with ill := if v.toNat % 2 = 1 then false else s.regs.ill })

/-- A register read returns its register's value, 0 for `CMD` and for the offsets that hold nothing, and changes no
register and no memory (10_state.md R23). That the value is kept in `reads` is the model's choice (log 7). -/
def Obligations.HostReadsReturnTheRegisters : Prop :=
  (∀ (s : State) (rest : List HostAction) (off : BitVec 6), s.host = .regRead off .word :: rest → off.toNat % 4 = 0 →
    step s = .next ((s.setHost rest).logRead (.word (hostReadValue s.regs off)))) ∧
  ∀ r : RegFile,
    hostReadValue r 0x00#6 = 0 ∧ hostReadValue r 0x04#6 = (if r.ill then 1 else 0) ∧
    hostReadValue r 0x08#6 = r.fbAddr ∧ hostReadValue r 0x0C#6 = r.color ∧
    hostReadValue r 0x10#6 = r.x.signExtend 32 ∧ hostReadValue r 0x14#6 = r.y.signExtend 32 ∧
    hostReadValue r 0x18#6 = r.w.zeroExtend 32 ∧ hostReadValue r 0x1C#6 = r.h.zeroExtend 32 ∧
    hostReadValue r 0x20#6 = r.srcAddr ∧ hostReadValue r 0x24#6 = r.srcW.zeroExtend 32 ∧
    hostReadValue r 0x28#6 = r.srcH.zeroExtend 32 ∧ hostReadValue r 0x2C#6 = r.dstAddr ∧
    hostReadValue r 0x30#6 = r.dstW.zeroExtend 32 ∧ hostReadValue r 0x34#6 = r.dstH.zeroExtend 32 ∧
    hostReadValue r 0x38#6 = 0 ∧ hostReadValue r 0x3C#6 = 0

/-- Writes to the offsets that hold nothing are ignored (10_state.md R24). -/
def Obligations.UnmappedWritesAreIgnored : Prop :=
  ∀ (s : State) (rest : List HostAction) (off : BitVec 6) (v : Word), off = 0x38#6 ∨ off = 0x3C#6 →
    s.host = .regWrite off .word v :: rest → step s = .next (s.setHost rest)

/-- A host access to the window that is not an aligned 32-bit access is refused by name (10_state.md R25; log 6). Every
other step answers a next state: that a `CMD` write whose launch R155 has a model refuse does so is the model's choice
(log 4), and that a reset during a command does is too (log 9). -/
def Obligations.OnlyUndefinedAccessesAreRefused : Prop :=
  (∀ (s : State) (rest : List HostAction) (off : BitVec 6) (width : AccessWidth) (v : Word),
    width ≠ .word ∨ off.toNat % 4 ≠ 0 →
    s.host = .regWrite off width v :: rest ∨ s.host = .regRead off width :: rest →
    step s = .refused (.unpredictableHostAccess off width)) ∧
  ∀ s : State, (∀ a rest, s.host = a :: rest → a.wellFormed = true) → ∃ t, step s = .next t

/-- The host's byte accesses reach the memory the commands use: a write changes that byte and no other, a read returns
it (10_state.md R29). One byte per access is the model's choice (log 13). -/
def Obligations.HostReachesTheSharedMemory : Prop :=
  (∀ (s : State) (rest : List HostAction) (a : Addr) (v : Byte), s.host = .memWrite a v :: rest →
    ∃ t, step s = .next t ∧ t = (s.setHost rest).setMem t.mem ∧
      t.mem.read a = v ∧ ∀ b, b ≠ a → t.mem.read b = s.mem.read b) ∧
  ∀ (s : State) (rest : List HostAction) (a : Addr), s.host = .memRead a :: rest →
    step s = .next ((s.setHost rest).logRead (.byte (s.mem.read a)))

/-- With no transaction to come the block is idle and holds its state (60_exceptions.md R144); that the run goes on with
idle steps is the model's choice (log 1). -/
def Obligations.BlockIsIdleBetweenTransactions : Prop := ∀ s : State, s.host = [] → step s = .next s

/-- Transactions are executed one at a time in the host's order: a step takes the first and leaves the rest; a read returns
one value and changes neither registers nor memory, and nothing else returns one (20_memory.md R51; the two lists are the
model's choice, log 1 and log 7). -/
def Obligations.TransactionsRunInTheHostsOrder : Prop :=
  ∀ (s t : State) (a : HostAction) (rest : List HostAction), s.host = a :: rest → step s = .next t →
    t.host = rest ∧
    ((∃ off width, a = .regRead off width) ∨ (∃ addr, a = .memRead addr) →
      ∃ d, t.reads = s.reads ++ [d] ∧ t.regs = s.regs ∧ t.mem = s.mem) ∧
    ((∀ off width, a ≠ .regRead off width) → (∀ addr, a ≠ .memRead addr) → t.reads = s.reads)

/-! ## Reset -/

/-- The registers after reset (10_state.md R32): all 0, read through the host interface at every offset. -/
def Obligations.RegistersAfterReset : Prop :=
  State.reset.regs.ill = false ∧ (∀ n, readReg State.reset.regs n = 0) ∧
  ∀ off : BitVec 6, hostReadValue State.reset.regs off = 0

/-- The initial bytes of memory are arbitrary inputs (10_state.md R32, 70_reset_and_hazards.md R153): after reset every
address reads its power-on byte, a free value (the form is the model's choice, log 2); so does every address without a
written byte in any memory; and a write leaves a written byte at its address and no other. -/
def Obligations.InitialBytesAreArbitrary : Prop :=
  (∀ a, State.reset.mem.read a = Config.powerOnByte a) ∧
  (∀ (m : Memory) (a : Addr), m.written a = none → m.read a = Config.powerOnByte a) ∧
  ∀ (m : Memory) (a b : Addr) (v : Byte),
    (m.write a v).written b = if b = a then some v else m.written b

/-- The platform's reset, from any state: the registers take their reset values and memory is neither written nor
cleared (70_reset_and_hazards.md R150). That the model's own fields stay is its choice (log 16). -/
def Obligations.BlockResetKeepsMemory : Prop :=
  ∀ (s : State) (rest : List HostAction), s.host = .reset :: rest →
    step s = .next ((s.setHost rest).setRegs State.reset.regs)

/-- Reset while a command runs: registers reset, each byte of the written region old or new, every other byte old; with an
illegal word no command runs and only the reset is left
(70_reset_and_hazards.md R151). That the model takes the case in, and how, is its choice (log 9). -/
def Obligations.ResetDuringCommandLeavesOldOrNewBytes : Prop :=
  (∀ (s : State) (rest : List HostAction) (word : Word) (i : Instr),
    s.host = .resetDuring word :: rest → decode word = .ok i →
    ∃ done t, exec i (s.setHost rest) = .next done ∧ step s = .next t ∧
      t.regs = State.reset.regs ∧ t.host = rest ∧ t.reads = s.reads ∧
      ∀ a, (inRegion (writtenRegion i s.regs).1 (writtenRegion i s.regs).2 a = true →
          t.mem.read a = s.mem.read a ∨ t.mem.read a = done.mem.read a) ∧
        (inRegion (writtenRegion i s.regs).1 (writtenRegion i s.regs).2 a = false → t.mem.read a = s.mem.read a)) ∧
  ∀ (s : State) (rest : List HostAction) (word : Word),
    s.host = .resetDuring word :: rest → (∀ i, decode word ≠ .ok i) →
    step s = .next ((s.setHost rest).setRegs State.reset.regs)

/-! ## Invariants and rules of the whole machine -/

/-- The invariant holds at reset. The canonical form of memory is the model's choice (log 2). -/
def Obligations.ResetKeepsMemoryCanonical : Prop := State.reset.Inv

/-- Every step keeps the memory in its canonical form, the model's choice (log 2), from every state that has it. -/
def Obligations.StepKeepsMemoryCanonical : Prop := ∀ s t : State, s.Inv → step s = .next t → t.Inv

/-- In canonical form, the model's choice (log 2), memories with the same written bytes are the same data. -/
def Obligations.EqualMemoriesAreEqualData : Prop :=
  ∀ m m' : Memory, m.wf → m'.wf → (∀ a, m.written a = m'.written a) → m = m'

/-- Every command, with any operand values and any memory, ends in a next state, and writes no register; the host's
transactions to come and the values its reads returned are as before (10_state.md R26, 60_exceptions.md R130). That this
holds of a launch the spec leaves unpredictable too is the model's choice (log 4). -/
def Obligations.CommandsCompleteAndWriteNoRegister : Prop :=
  ∀ (i : Instr) (s : State), ∃ t, exec i s = .next t ∧ t.regs = s.regs ∧ t.host = s.host ∧ t.reads = s.reads

/-- `STATUS.ILL` is set by an illegal command word and by nothing else, and cleared by the host's acknowledgement or a
reset and by nothing else (10_state.md R21). A reset during a command is the model's choice (log 9). -/
def Obligations.IllFlagChangesOnlyAsStated : Prop :=
  ∀ s t : State, step s = .next t →
    (s.regs.ill = false → t.regs.ill = true →
      ∃ word rest, s.host = .regWrite 0x00#6 .word word :: rest ∧ ∀ i, decode word ≠ .ok i) ∧
    (s.regs.ill = true → t.regs.ill = false →
      (∃ v rest, s.host = .regWrite 0x04#6 .word v :: rest ∧ v.getLsbD 0 = true) ∨
      (∃ rest, s.host = .reset :: rest) ∨ ∃ word rest, s.host = .resetDuring word :: rest)

/-- The registers are written by the host and by reset only: a step that changes a register other than `STATUS` is a
write to that register's offset or a reset, and a register keeps its value in every other step (10_state.md R11, R26). A
reset during a command is the model's choice (log 9). -/
def Obligations.OperandRegistersChangeOnlyByTheHost : Prop :=
  ∀ (s t : State) (n : RegName), step s = .next t → n ≠ .status → readReg t.regs n ≠ readReg s.regs n →
    (∃ v rest, s.host = .regWrite (regOffset n) .word v :: rest) ∨
    (∃ rest, s.host = .reset :: rest) ∨ ∃ word rest, s.host = .resetDuring word :: rest

/-- Whatever the operands, a framebuffer command writes no byte outside the 3 686 400 bytes at `FB_ADDR`, and RESIZE none
outside the destination region (20_memory.md R46, R49; 10_state.md R30). -/
def Obligations.CommandsWriteOnlyTheirRegion : Prop :=
  ∀ (i : Instr) (s t : State), s.LaunchOk i → exec i s = .next t →
    (i ≠ .resize → ∀ a, inRegion s.regs.fbAddr 3686400 a = false → t.mem.read a = s.mem.read a) ∧
    (i = .resize → ∀ a, inRegion s.regs.dstAddr (s.regs.dstWidth * s.regs.dstHeight * 3) a = false →
      t.mem.read a = s.mem.read a)

/-- The overlap test holds exactly when the two regions share a byte (70_reset_and_hazards.md R155). -/
def Obligations.OverlapIsASharedByte : Prop :=
  ∀ (b₁ b₂ : Addr) (n₁ n₂ : Nat),
    regionsOverlap b₁ n₁ b₂ n₂ = true ↔ ∃ i < n₁, ∃ j < n₂, addrPlus b₁ i = addrPlus b₂ j

/-- Where the launch obligations are not met, the command still completes, no register and no flag changes, and every
byte outside its source and written regions is untouched (70_reset_and_hazards.md R155, R158). That the command runs at
all there, with free values in the two regions, is the model's choice (log 4). -/
def Obligations.UndefinedLaunchLeavesTheRestAlone : Prop :=
  ∀ (i : Instr) (s : State), launchDefined i s.regs = false →
    ∃ t, exec i s = .next t ∧ t.regs = s.regs ∧ t.host = s.host ∧ t.reads = s.reads ∧
      ∀ a, inRegion (sourceRegion i s.regs).1 (sourceRegion i s.regs).2 a = false →
        inRegion (writtenRegion i s.regs).1 (writtenRegion i s.regs).2 a = false → t.mem.read a = s.mem.read a

/-- The commands that read no source buffer have no launch obligation (70_reset_and_hazards.md R155; `launchDefined` is the
model's, log 4). -/
def Obligations.CommandsWithoutSourceAreAlwaysDefined : Prop :=
  ∀ (s : State), s.LaunchOk .pblend ∧ s.LaunchOk .fill ∧ s.LaunchOk .fillb ∧ s.LaunchOk .shadow

/-- A register a command does not read has no influence on it: two states with the same memory that agree on the
registers of the table of 10_state.md R11 end with the same memory (30_encoding.md R63). For a launch the spec leaves without
a result (70_reset_and_hazards.md R155, R158) the same free bytes come out because the two counters are equal: that is the model's choice (log 4, log 5). -/
def Obligations.UnreadRegistersHaveNoInfluence : Prop :=
  ∀ (i : Instr) (s s' t t' : State), s.mem = s'.mem → s.freeCount = s'.freeCount →
    (∀ n ∈ readBy i, readReg s.regs n = readReg s'.regs n) →
    exec i s = .next t → exec i s' = .next t' → t.mem = t'.mem

/-! ## The alpha_blender unit -/

/-- `Blend8` is the exact quotient: nothing is lost in 8 bits, and the sum needs 16 bits at most (40_blend.md R80). -/
def Obligations.BlendIsTheTruncatedQuotient : Prop :=
  ∀ f c alpha : Byte,
    (blend8 f c alpha).toNat = (c.toNat * alpha.toNat + f.toNat * (255 - alpha.toNat)) / 255 ∧
    c.toNat * alpha.toNat + f.toNat * (255 - alpha.toNat) ≤ 65025

/-- The laws of `Blend8` (40_blend.md R90). -/
def Obligations.BlendLaws : Prop :=
  (∀ f c : Byte, blend8 f c 0 = f ∧ blend8 f c 255 = c) ∧
  (∀ f alpha : Byte, blend8 f f alpha = f) ∧
  (∀ f c alpha : Byte, min f.toNat c.toNat ≤ (blend8 f c alpha).toNat ∧ (blend8 f c alpha).toNat ≤ max f.toNat c.toNat) ∧
  (∀ f f' c c' alpha : Byte, f ≤ f' → c ≤ c' → blend8 f c alpha ≤ blend8 f' c' alpha) ∧
  (∀ alpha : Byte, blend8 0 255 alpha = alpha ∧ blend8 255 0 alpha = 255 - alpha) ∧
  blend8 0 1 254 = 0 ∧ (∃ f c alpha : Byte, blend8 (blend8 f c alpha) c alpha ≠ blend8 f c alpha)

/-- `PutBlend`: outside the canvas nothing at all; inside, r, g, b blended with the colour's alpha, the alpha byte 255,
and no other byte written (40_blend.md R82). -/
def Obligations.PutBlendPixel : Prop :=
  ∀ (fb : Addr) (x y : Int) (c : Color) (m : Memory),
    (inCanvas x y = false → putBlend fb x y c m = m) ∧
    (inCanvas x y = true →
      loadPixel (putBlend fb x y c m) (pixelAddr fb x y) =
        { r := blend8 (m.read (pixelAddr fb x y)) c.r c.a
          g := blend8 (m.read (addrPlus (pixelAddr fb x y) 1)) c.g c.a
          b := blend8 (m.read (addrPlus (pixelAddr fb x y) 2)) c.b c.a
          a := 255 } ∧
      ∀ a, (∀ k < 4, a ≠ addrPlus (pixelAddr fb x y) k) → (putBlend fb x y c m).read a = m.read a)

/-- `PutRaw`: outside the canvas nothing at all; inside, the four bytes as given, and no other byte written
(40_blend.md R83). -/
def Obligations.PutRawPixel : Prop :=
  ∀ (fb : Addr) (x y : Int) (c : Color) (m : Memory),
    (inCanvas x y = false → putRaw fb x y c m = m) ∧
    (inCanvas x y = true →
      loadPixel (putRaw fb x y c m) (pixelAddr fb x y) = c ∧
      ∀ a, (∀ k < 4, a ≠ addrPlus (pixelAddr fb x y) k) → (putRaw fb x y c m).read a = m.read a)

/-- The canvas test, the pixel address, and that pixels of the canvas share no byte (40_blend.md R81). -/
def Obligations.CanvasPixelsAreApart : Prop :=
  (∀ x y : Int, inCanvas x y = true ↔ 0 ≤ x ∧ x < 1280 ∧ 0 ≤ y ∧ y < 720) ∧
  (∀ (fb : Addr) (x y : Int), inCanvas x y = true →
    ((pixelAddr fb x y).toNat : Int) = (fb.toNat + (y * 1280 + x) * 4) % 2 ^ 32 ∧ (y * 1280 + x) * 4 ≤ 3686396) ∧
  ∀ (r : RegFile) (x y x' y' : Int) (a : Addr), r.PixelByte x y a → r.PixelByte x' y' a → x = x' ∧ y = y'

/-- The command word and the result of PBLEND (40_blend.md R85): one pixel blended, or nothing; only memory changes. -/
def Obligations.PblendResult : Prop :=
  decode 0x00000001#32 = .ok .pblend ∧
  ∀ s : State, ∃ t, exec .pblend s = .next t ∧ t = s.setMem t.mem ∧
    (inCanvas s.regs.posX s.regs.posY = true →
      t.pixel s.regs.posX s.regs.posY = blendPixel (s.pixel s.regs.posX s.regs.posY)
        { r := s.regs.color.extractLsb' 0 8, g := s.regs.color.extractLsb' 8 8,
          b := s.regs.color.extractLsb' 16 8, a := s.regs.color.extractLsb' 24 8 }) ∧
    ∀ a, ¬ s.regs.PixelByte s.regs.posX s.regs.posY a → t.mem.read a = s.mem.read a

/-- The command word and the result of FILL (40_blend.md R86): every canvas pixel of the rectangle takes the four bytes of `COLOR`; no other byte of memory
changes, and nothing but memory. -/
def Obligations.FillResult : Prop :=
  decode 0x00000002#32 = .ok .fill ∧
  ∀ s : State, ∃ t, exec .fill s = .next t ∧ t = s.setMem t.mem ∧
    (∀ px py, inCanvas px py = true → s.regs.InRect px py → t.pixel px py =
      { r := s.regs.color.extractLsb' 0 8, g := s.regs.color.extractLsb' 8 8,
        b := s.regs.color.extractLsb' 16 8, a := s.regs.color.extractLsb' 24 8 }) ∧
    ∀ a, (∀ px py, s.regs.InRect px py → ¬ s.regs.PixelByte px py a) → t.mem.read a = s.mem.read a

/-- The command word and the result of FILLB (40_blend.md R87): every canvas pixel of the rectangle is blended with `COLOR` once; no other byte of memory
changes, and nothing but memory. -/
def Obligations.FillbResult : Prop :=
  decode 0x00000003#32 = .ok .fillb ∧
  ∀ s : State, ∃ t, exec .fillb s = .next t ∧ t = s.setMem t.mem ∧
    (∀ px py, inCanvas px py = true → s.regs.InRect px py → t.pixel px py = blendPixel (s.pixel px py)
      { r := s.regs.color.extractLsb' 0 8, g := s.regs.color.extractLsb' 8 8,
        b := s.regs.color.extractLsb' 16 8, a := s.regs.color.extractLsb' 24 8 }) ∧
    ∀ a, (∀ px py, s.regs.InRect px py → ¬ s.regs.PixelByte px py a) → t.mem.read a = s.mem.read a

/-- The command word and the result of SHADOW (40_blend.md R88): every canvas pixel of row `k` of the band is blended with `COLOR`'s r, g, b at the alpha
`(a * (4 - k)) div 4`; no other byte of memory changes, and nothing but memory. -/
def Obligations.ShadowResult : Prop :=
  decode 0x00000004#32 = .ok .shadow ∧
  ∀ s : State, ∃ t, exec .shadow s = .next t ∧ t = s.setMem t.mem ∧
    (∀ k px py, inCanvas px py = true → s.regs.InShadowRow k px py →
      ∃ ak : Byte, ak.toNat = (s.regs.color.extractLsb' 24 8).toNat * (4 - k) / 4 ∧
        t.pixel px py = blendPixel (s.pixel px py)
          { r := s.regs.color.extractLsb' 0 8, g := s.regs.color.extractLsb' 8 8,
            b := s.regs.color.extractLsb' 16 8, a := ak }) ∧
    ∀ a, (∀ k px py, s.regs.InShadowRow k px py → ¬ s.regs.PixelByte px py a) → t.mem.read a = s.mem.read a

/-- The command word and the result of CBLEND (40_blend.md R89) with its source region apart from the framebuffer
(70_reset_and_hazards.md R155): every canvas pixel of the block is
blended with `COLOR`'s r, g, b at the alpha its coverage byte gives; no other byte of memory changes, and nothing but
memory. -/
def Obligations.CblendResult : Prop :=
  decode 0x00000005#32 = .ok .cblend ∧
  ∀ s : State, s.LaunchOk .cblend → ∃ t, exec .cblend s = .next t ∧ t = s.setMem t.mem ∧
    (∀ col row : Nat, col < s.regs.width → row < s.regs.height →
      inCanvas (s.regs.posX + col) (s.regs.posY + row) = true →
      t.pixel (s.regs.posX + col) (s.regs.posY + row) = blendPixel (s.pixel (s.regs.posX + col) (s.regs.posY + row))
        { r := s.regs.color.extractLsb' 0 8, g := s.regs.color.extractLsb' 8 8, b := s.regs.color.extractLsb' 16 8,
          a := s.mem.read (addrPlus s.regs.srcAddr (row * s.regs.width + col)) }) ∧
    ∀ a, (∀ px py, s.regs.InRect px py → ¬ s.regs.PixelByte px py a) → t.mem.read a = s.mem.read a

/-- CBLEND ignores the alpha field of `COLOR` (40_blend.md R89). That two launches whose regions overlap end with the same
bytes is no rule of the spec but the model's choice (log 4, log 5). -/
def Obligations.CblendIgnoresColorAlpha : Prop :=
  ∀ (s t t' : State) (c : Word), c.toNat % 2 ^ 24 = s.regs.color.toNat % 2 ^ 24 →
    exec .cblend s = .next t → exec .cblend (s.setRegs { s.regs with color := c }) = .next t' → t.mem = t'.mem

/-- With `W = 0` or `H = 0` the rectangle commands change nothing at all (40_blend.md R84), and SHADOW with `W = 0`
neither (R88). -/
def Obligations.EmptyRectanglesDrawNothing : Prop :=
  ∀ s : State,
    (s.regs.w = 0 ∨ s.regs.h = 0 → ∀ i ∈ [Instr.fill, .fillb, .cblend, .blitRgb24, .blitRgba32, .blitBgr24, .blitAbgr32],
      exec i s = .next s) ∧
    (s.regs.w = 0 → exec .shadow s = .next s)

/-! ## The image_format_converter unit -/

/-- The command word and the result of BLIT.RGB24 (41_blit.md R101) with its source region apart from the framebuffer
(70_reset_and_hazards.md R155): every canvas pixel of the image
becomes `(b0, b1, b2, 255)`; no other byte of memory changes, and nothing but memory. -/
def Obligations.BlitRgb24Result : Prop :=
  decode 0x00000010#32 = .ok .blitRgb24 ∧
  ∀ s : State, s.LaunchOk .blitRgb24 → ∃ t, exec .blitRgb24 s = .next t ∧ t = s.setMem t.mem ∧
    (∀ col row : Nat, col < s.regs.width → row < s.regs.height →
      inCanvas (s.regs.posX + col) (s.regs.posY + row) = true →
      t.pixel (s.regs.posX + col) (s.regs.posY + row) =
        { r := s.mem.read (addrPlus s.regs.srcAddr ((row * s.regs.width + col) * 3))
          g := s.mem.read (addrPlus s.regs.srcAddr ((row * s.regs.width + col) * 3 + 1))
          b := s.mem.read (addrPlus s.regs.srcAddr ((row * s.regs.width + col) * 3 + 2))
          a := 255 }) ∧
    ∀ a, (∀ px py, s.regs.InRect px py → ¬ s.regs.PixelByte px py a) → t.mem.read a = s.mem.read a

/-- The command word and the result of BLIT.RGBA32 (41_blit.md R102) with its source region apart from the framebuffer
(70_reset_and_hazards.md R155): every canvas pixel of the image is
blended with `(b0, b1, b2, b3)`; no other byte of memory changes, and nothing but memory. -/
def Obligations.BlitRgba32Result : Prop :=
  decode 0x00000011#32 = .ok .blitRgba32 ∧
  ∀ s : State, s.LaunchOk .blitRgba32 → ∃ t, exec .blitRgba32 s = .next t ∧ t = s.setMem t.mem ∧
    (∀ col row : Nat, col < s.regs.width → row < s.regs.height →
      inCanvas (s.regs.posX + col) (s.regs.posY + row) = true →
      t.pixel (s.regs.posX + col) (s.regs.posY + row) = blendPixel (s.pixel (s.regs.posX + col) (s.regs.posY + row))
        { r := s.mem.read (addrPlus s.regs.srcAddr ((row * s.regs.width + col) * 4))
          g := s.mem.read (addrPlus s.regs.srcAddr ((row * s.regs.width + col) * 4 + 1))
          b := s.mem.read (addrPlus s.regs.srcAddr ((row * s.regs.width + col) * 4 + 2))
          a := s.mem.read (addrPlus s.regs.srcAddr ((row * s.regs.width + col) * 4 + 3)) }) ∧
    ∀ a, (∀ px py, s.regs.InRect px py → ¬ s.regs.PixelByte px py a) → t.mem.read a = s.mem.read a

/-- The command word and the result of BLIT.BGR24 (41_blit.md R103) with its source region apart from the framebuffer
(70_reset_and_hazards.md R155): every canvas pixel of the image
becomes `(b2, b1, b0, 255)`; no other byte of memory changes, and nothing but memory. -/
def Obligations.BlitBgr24Result : Prop :=
  decode 0x00000012#32 = .ok .blitBgr24 ∧
  ∀ s : State, s.LaunchOk .blitBgr24 → ∃ t, exec .blitBgr24 s = .next t ∧ t = s.setMem t.mem ∧
    (∀ col row : Nat, col < s.regs.width → row < s.regs.height →
      inCanvas (s.regs.posX + col) (s.regs.posY + row) = true →
      t.pixel (s.regs.posX + col) (s.regs.posY + row) =
        { r := s.mem.read (addrPlus s.regs.srcAddr ((row * s.regs.width + col) * 3 + 2))
          g := s.mem.read (addrPlus s.regs.srcAddr ((row * s.regs.width + col) * 3 + 1))
          b := s.mem.read (addrPlus s.regs.srcAddr ((row * s.regs.width + col) * 3))
          a := 255 }) ∧
    ∀ a, (∀ px py, s.regs.InRect px py → ¬ s.regs.PixelByte px py a) → t.mem.read a = s.mem.read a

/-- The command word and the result of BLIT.ABGR32 (41_blit.md R104) with its source region apart from the framebuffer
(70_reset_and_hazards.md R155): every canvas pixel of the image is
blended with `(b3, b2, b1, b0)`; no other byte of memory changes, and nothing but memory. -/
def Obligations.BlitAbgr32Result : Prop :=
  decode 0x00000013#32 = .ok .blitAbgr32 ∧
  ∀ s : State, s.LaunchOk .blitAbgr32 → ∃ t, exec .blitAbgr32 s = .next t ∧ t = s.setMem t.mem ∧
    (∀ col row : Nat, col < s.regs.width → row < s.regs.height →
      inCanvas (s.regs.posX + col) (s.regs.posY + row) = true →
      t.pixel (s.regs.posX + col) (s.regs.posY + row) = blendPixel (s.pixel (s.regs.posX + col) (s.regs.posY + row))
        { r := s.mem.read (addrPlus s.regs.srcAddr ((row * s.regs.width + col) * 4 + 3))
          g := s.mem.read (addrPlus s.regs.srcAddr ((row * s.regs.width + col) * 4 + 2))
          b := s.mem.read (addrPlus s.regs.srcAddr ((row * s.regs.width + col) * 4 + 1))
          a := s.mem.read (addrPlus s.regs.srcAddr ((row * s.regs.width + col) * 4)) }) ∧
    ∀ a, (∀ px py, s.regs.InRect px py → ¬ s.regs.PixelByte px py a) → t.mem.read a = s.mem.read a

/-! ## The bicubic_image_resampler unit -/

/-- `Q8` clamps to 0..255 and rounds down (42_resize.md R113). -/
def Obligations.QEightClampsAndRoundsDown : Prop :=
  ∀ v : Rat, (v < 0 → q8 v = 0) ∧ (255 ≤ v → q8 v = 255) ∧
    (0 ≤ v → v < 255 → ((q8 v).toNat : Int) = v.floor ∧ ((q8 v).toNat : Rat) ≤ v ∧ v < (q8 v).toNat + 1)

/-- The tap-weight form of `Cubic`: the weights, their sum, their values at 0, 1/2 and 1/4, and their signs
(42_resize.md R116). -/
def Obligations.CubicIsATapWeightSum : Prop :=
  ∃ w : Fin 4 → Rat → Rat,
    (∀ t, w 0 t = -t * (t - 1) * (t - 2) / 6 ∧ w 1 t = (t + 1) * (t - 1) * (t - 2) / 2 ∧
      w 2 t = -(t + 1) * t * (t - 2) / 2 ∧ w 3 t = (t + 1) * t * (t - 1) / 6) ∧
    (∀ (s0 s1 s2 s3 : Int) (t : Rat), cubic s0 s1 s2 s3 t = w 0 t * s0 + w 1 t * s1 + w 2 t * s2 + w 3 t * s3) ∧
    (∀ t, w 0 t + w 1 t + w 2 t + w 3 t = 1) ∧
    (w 0 0 = 0 ∧ w 1 0 = 1 ∧ w 2 0 = 0 ∧ w 3 0 = 0) ∧
    (w 0 (1 / 2) = -1 / 16 ∧ w 1 (1 / 2) = 9 / 16 ∧ w 2 (1 / 2) = 9 / 16 ∧ w 3 (1 / 2) = -1 / 16) ∧
    (w 0 (1 / 4) = -7 / 128 ∧ w 1 (1 / 4) = 105 / 128 ∧ w 2 (1 / 4) = 35 / 128 ∧ w 3 (1 / 4) = -5 / 128) ∧
    (∀ t, 0 < t → t < 1 → w 0 t < 0 ∧ 0 < w 1 t ∧ 0 < w 2 t ∧ w 3 t < 0)

/-- The integer form the machine runs is the rule's exact rational: `Cubic(s0, s1, s2, s3, n/D) = N / (6 * D^3)`, `Q8` of
it is what the machine computes, by the rule's three cases, and `|N| < 2^63` for the sizes there are (42_resize.md R115).
That the machine runs this form is the model's choice (log 14). -/
def Obligations.CubicIntegerForm : Prop :=
  ∀ (s0 s1 s2 s3 : Byte) (n D : Nat), n < D →
    cubic s0.toNat s1.toNat s2.toNat s3.toNat ((n : Rat) / D) =
      (cubicNum s0.toNat s1.toNat s2.toNat s3.toNat n D : Rat) / (6 * (D : Rat) ^ 3) ∧
    cubicQ8 s0 s1 s2 s3 n D = q8 (cubic s0.toNat s1.toNat s2.toNat s3.toNat ((n : Rat) / D)) ∧
    (cubicNum s0.toNat s1.toNat s2.toNat s3.toNat n D < 0 → cubicQ8 s0 s1 s2 s3 n D = 0) ∧
    (255 * (6 * (D : Int) ^ 3) ≤ cubicNum s0.toNat s1.toNat s2.toNat s3.toNat n D → cubicQ8 s0 s1 s2 s3 n D = 255) ∧
    (0 ≤ cubicNum s0.toNat s1.toNat s2.toNat s3.toNat n D →
      cubicNum s0.toNat s1.toNat s2.toNat s3.toNat n D < 255 * (6 * (D : Int) ^ 3) →
      ((cubicQ8 s0 s1 s2 s3 n D).toNat : Int) = cubicNum s0.toNat s1.toNat s2.toNat s3.toNat n D / (6 * (D : Int) ^ 3)) ∧
    (D ≤ 65535 → (cubicNum s0.toNat s1.toNat s2.toNat s3.toNat n D).natAbs < 2 ^ 63)

/-- The range of `Cubic` over four bytes, and that both ends are reached, at `t = 1/2`, where `Q8` clamps them
(42_resize.md R121). -/
def Obligations.CubicOvershootIsBounded : Prop :=
  (∀ (s0 s1 s2 s3 : Byte) (t : Rat), 0 ≤ t → t < 1 →
    -255 / 8 ≤ cubic s0.toNat s1.toNat s2.toNat s3.toNat t ∧
    cubic s0.toNat s1.toNat s2.toNat s3.toNat t ≤ 2295 / 8) ∧
  cubic 0 255 255 0 (1 / 2) = 2295 / 8 ∧ cubic 255 0 0 255 (1 / 2) = -255 / 8 ∧
  q8 (cubic 0 255 255 0 (1 / 2)) = 255 ∧ q8 (cubic 255 0 0 255 (1 / 2)) = 0

/-- The source coordinate of a destination column or row: inside the source and exact with its fraction; exactly when a tap
lies outside; what each of the sixteen taps of a destination pixel reads, 0 where its column or its row lies outside and
the source byte where neither does; and the anchor at the top-left corner (42_resize.md R117). -/
def Obligations.SourceCoordinatesStayInside : Prop :=
  (∀ j sw dw : Nat, j < dw → 1 ≤ sw →
    coordInt j sw dw ≤ sw - 1 ∧ coordNum j sw dw < dw ∧ coordInt j sw dw * dw + coordNum j sw dw = j * sw) ∧
  (∀ j sw dw : Nat, ∀ d ∈ ([-1, 0, 1, 2] : List Int), j < dw → 1 ≤ sw →
    (tapOutside d (coordInt j sw dw) sw ↔ (coordInt j sw dw : Int) + d < 0 ∨ sw ≤ (coordInt j sw dw : Int) + d)) ∧
  (∀ (r : RegFile) (m : Memory) (i j k : Nat), i < r.dstHeight → j < r.dstWidth → 1 ≤ r.srcHeight → 1 ≤ r.srcWidth →
    ∀ d ∈ ([-1, 0, 1, 2] : List Int), ∀ e ∈ ([-1, 0, 1, 2] : List Int),
      let y := coordInt i r.srcHeight r.dstHeight
      let x := coordInt j r.srcWidth r.dstWidth
      (tapOutside d y r.srcHeight ∨ tapOutside e x r.srcWidth → getPix r m (y + d) (x + e) k = 0) ∧
      (¬ tapOutside d y r.srcHeight → ¬ tapOutside e x r.srcWidth → getPix r m (y + d) (x + e) k =
        m.read (addrPlus r.srcAddr (((y + d).toNat * r.srcWidth + (x + e).toNat) * 3 + k)))) ∧
  ∀ sw dw : Nat, coordInt 0 sw dw = 0 ∧ coordNum 0 sw dw = 0

/-- The command word and the result of RESIZE (42_resize.md R114) with its regions apart and a destination of at most 2^32 bytes
(70_reset_and_hazards.md R155, R158): every destination byte is
the rule's, computed in exact rationals from the memory the command started with; no other byte of memory changes, and
nothing but memory. -/
def Obligations.ResizeResult : Prop :=
  decode 0x00000020#32 = .ok .resize ∧
  ∀ s : State, s.LaunchOk .resize → ∃ t, exec .resize s = .next t ∧ t = s.setMem t.mem ∧
    (∀ i j k : Nat, i < s.regs.dstHeight → j < s.regs.dstWidth → k < 3 →
      t.mem.read (addrPlus s.regs.dstAddr ((i * s.regs.dstWidth + j) * 3 + k)) = exactOut s.regs s.mem i j k) ∧
    ∀ a, inRegion s.regs.dstAddr (s.regs.dstWidth * s.regs.dstHeight * 3) a = false → t.mem.read a = s.mem.read a

/-- An integer downscale is pure decimation, and at equal sizes (`m = m' = 1`) RESIZE is an exact copy
(42_resize.md R118), with the launch obligations of 70_reset_and_hazards.md R155 and R158 met. -/
def Obligations.ResizeByWholeFactorsPicksPixels : Prop :=
  ∀ (s : State) (m m' : Nat), s.LaunchOk .resize → 1 ≤ m → 1 ≤ m' →
    s.regs.srcWidth = m * s.regs.dstWidth → s.regs.srcHeight = m' * s.regs.dstHeight →
    ∃ t, exec .resize s = .next t ∧
      ∀ i j k : Nat, i < s.regs.dstHeight → j < s.regs.dstWidth → k < 3 →
        t.mem.read (addrPlus s.regs.dstAddr ((i * s.regs.dstWidth + j) * 3 + k)) =
          s.mem.read (addrPlus s.regs.srcAddr ((i * m' * s.regs.srcWidth + j * m) * 3 + k))

/-- Empty images (42_resize.md R120): with an empty destination nothing changes; with an empty source every destination
byte becomes 0 and no other byte changes. The bound on the destination is the launch obligation of
70_reset_and_hazards.md R158, which the model takes in as log 4 says. -/
def Obligations.ResizeOfEmptyImages : Prop :=
  (∀ s : State, s.regs.dstW = 0 ∨ s.regs.dstH = 0 → exec .resize s = .next s) ∧
  ∀ s : State, s.regs.srcW = 0 ∨ s.regs.srcH = 0 → s.regs.dstWidth * s.regs.dstHeight * 3 ≤ 2 ^ 32 →
    ∃ t, exec .resize s = .next t ∧ t = s.setMem t.mem ∧
      ∀ a, t.mem.read a =
        if inRegion s.regs.dstAddr (s.regs.dstWidth * s.regs.dstHeight * 3) a then 0 else s.mem.read a

/-- The per-pixel procedure is the whole-image two-pass one: the second pass over the zero-padded intermediate image `I`,
whose rows are the source's (42_resize.md R124). -/
def Obligations.ResizeIsATwoPassResize : Prop :=
  ∀ (r : RegFile) (m : Memory), ∃ I : Nat → Nat → Nat → Byte,
    (∀ z j k, z < r.srcHeight → j < r.dstWidth → I z j k = exactRow r m z j k) ∧
    ∀ i j k, i < r.dstHeight → j < r.dstWidth →
      let y : Int := (i * r.srcHeight / r.dstHeight : Nat)
      let padded : Int → Byte := fun z => if 0 ≤ z ∧ z < r.srcHeight then I z.toNat j k else 0
      exactOut r m i j k =
        q8 (cubic (padded (y - 1)).toNat (padded y).toNat (padded (y + 1)).toNat (padded (y + 2)).toNat
          ((i * r.srcHeight % r.dstHeight : Nat) / (r.dstHeight : Rat)))

/-! ## The assembler -/

/-- Running the transactions a pseudo-instruction expands to is running its command with its operands in the registers
(30_encoding.md R68, R69). That a value is cut to 32 bits is the model's choice (log 20). -/
def Obligations.PseudoInstructionsRunTheirCommand : Prop :=
  ∀ (s : State) (rest : List HostAction) (x y w h addr color src sw sh dst dw dh : Int) (fmt : PixelFormat),
    let run (n : Nat) (p : Pseudo) := runSteps n (s.setHost (assembleAll (expand p) ++ rest))
    let from_ (r : RegFile) := (s.setHost rest).setRegs r
    let rect := { s.regs with x := BitVec.ofInt 16 x, y := BitVec.ofInt 16 y, w := BitVec.ofInt 16 w, h := BitVec.ofInt 16 h }
    run 1 (.setfb addr) = .next (from_ { s.regs with fbAddr := BitVec.ofInt 32 addr }) ∧
    run 4 (.pblend x y color) = exec .pblend (from_
      { s.regs with x := BitVec.ofInt 16 x, y := BitVec.ofInt 16 y, color := BitVec.ofInt 32 color }) ∧
    run 6 (.fill x y w h color) = exec .fill (from_ { rect with color := BitVec.ofInt 32 color }) ∧
    run 6 (.fillb x y w h color) = exec .fillb (from_ { rect with color := BitVec.ofInt 32 color }) ∧
    run 6 (.shadow x y w h color) = exec .shadow (from_ { rect with color := BitVec.ofInt 32 color }) ∧
    run 7 (.cblend x y w h addr color) = exec .cblend (from_
      { rect with srcAddr := BitVec.ofInt 32 addr, color := BitVec.ofInt 32 color }) ∧
    run 6 (.drawImage x y w h addr fmt) = exec (blitOf fmt) (from_ { rect with srcAddr := BitVec.ofInt 32 addr }) ∧
    run 7 (.resize src sw sh dst dw dh) = exec .resize (from_
      { s.regs with srcAddr := BitVec.ofInt 32 src, srcW := BitVec.ofInt 16 sw, srcH := BitVec.ofInt 16 sh,
                    dstAddr := BitVec.ofInt 32 dst, dstW := BitVec.ofInt 16 dw, dstH := BitVec.ofInt 16 dh }) ∧
    run 1 .clrill = .next (from_ { s.regs with ill := false })

/-- A colour packed by the assembler and read by a command is the same colour (10_state.md R13, 30_encoding.md R69). -/
def Obligations.PackedColorsUnpack : Prop := ∀ c : Color, unpackColor (packColor c) = c
end

