-- ==== Sys2Proof/Laws/Loops.lean ====
section
/-! SUPPORT. The loops of the pseudocode: an invariant of the body is an invariant of the loop, and what a loop whose body
writes separate places leaves in one place. -/

namespace Sys2Proof.Machine

variable {σ : Type}

@[simp] theorem forRange_zero (body : Nat → σ → σ) (s : σ) : forRange 0 body s = s := rfl

@[simp] theorem forRange_succ (n : Nat) (body : Nat → σ → σ) (s : σ) :
    forRange (n + 1) body s = body n (forRange n body s) := rfl

/-- What holds at the start and is kept by every iteration holds at the end. -/
theorem forRange_keeps {P : σ → Prop} {n : Nat} {body : Nat → σ → σ} {s : σ} (h0 : P s)
    (hb : ∀ i t, i < n → P t → P (body i t)) : P (forRange n body s) := by
  induction n with
  | zero => exact h0
  | succ n ih =>
    exact hb n _ (Nat.lt_succ_self n) (ih fun i t hi => hb i t (Nat.lt_succ_of_lt hi))

/-- Two bodies that agree on every state an invariant admits run the same loop. -/
theorem forRange_congr_of {P : σ → Prop} {n : Nat} {body body' : Nat → σ → σ} {s : σ} (h0 : P s)
    (hb : ∀ i t, i < n → P t → P (body i t)) (he : ∀ i t, i < n → P t → body i t = body' i t) :
    forRange n body s = forRange n body' s := by
  induction n with
  | zero => rfl
  | succ n ih =>
    have hP : P (forRange n body s) :=
      forRange_keeps h0 fun i t hi => hb i t (Nat.lt_succ_of_lt hi)
    have hEq := ih (fun i t hi => hb i t (Nat.lt_succ_of_lt hi)) fun i t hi => he i t (Nat.lt_succ_of_lt hi)
    rw [forRange_succ, forRange_succ, ← hEq, he n _ (Nat.lt_succ_self n) hP]

/-- A place `obs` that only iteration `i` changes holds, at the end, what iteration `i` puts there from what `obs` held
at the start. -/
theorem forRange_one {α : Type} {obs : σ → α} {n i : Nat} {body : Nat → σ → σ} {s : σ} {g : α → α} (hi : i < n)
    (hne : ∀ j t, j < n → j ≠ i → obs (body j t) = obs t) (heq : ∀ t, obs (body i t) = g (obs t)) :
    obs (forRange n body s) = g (obs s) := by
  induction n with
  | zero => exact absurd hi (Nat.not_lt_zero i)
  | succ n ih =>
    rw [forRange_succ]
    by_cases h : i = n
    · subst h
      rw [heq]
      congr 1
      exact forRange_keeps (P := fun t => obs t = obs s) rfl fun j t hj ht =>
        (hne j t (Nat.lt_succ_of_lt hj) (Nat.ne_of_lt hj)).trans ht
    · rw [hne n _ (Nat.lt_succ_self n) (Ne.symm h)]
      exact ih (by omega) fun j t hj => hne j t (Nat.lt_succ_of_lt hj)

/-- A place no iteration changes holds what it held. -/
theorem forRange_none {α : Type} {obs : σ → α} {n : Nat} {body : Nat → σ → σ} {s : σ}
    (hne : ∀ j t, j < n → obs (body j t) = obs t) : obs (forRange n body s) = obs s :=
  forRange_keeps (P := fun t => obs t = obs s) rfl fun j t hj ht => (hne j t hj).trans ht

/-- The same three for the row-major traversal. -/
theorem forRect_keeps {P : σ → Prop} {w h : Nat} {body : Nat → Nat → σ → σ} {s : σ} (h0 : P s)
    (hb : ∀ col row t, col < w → row < h → P t → P (body col row t)) : P (forRect w h body s) :=
  forRange_keeps h0 fun row _ hr ht => forRange_keeps ht fun col t hc => hb col row t hc hr

theorem forRect_congr_of {P : σ → Prop} {w h : Nat} {body body' : Nat → Nat → σ → σ} {s : σ} (h0 : P s)
    (hb : ∀ col row t, col < w → row < h → P t → P (body col row t))
    (he : ∀ col row t, col < w → row < h → P t → body col row t = body' col row t) :
    forRect w h body s = forRect w h body' s :=
  forRange_congr_of h0 (fun row _ hr ht => forRange_keeps ht fun col t hc => hb col row t hc hr)
    fun row _ hr ht => forRange_congr_of ht (fun col t hc => hb col row t hc hr) fun col t hc => he col row t hc hr

theorem forRect_one {α : Type} {obs : σ → α} {w h col row : Nat} {body : Nat → Nat → σ → σ} {s : σ} {g : α → α}
    (hc : col < w) (hr : row < h)
    (hne : ∀ c r t, c < w → r < h → ¬(c = col ∧ r = row) → obs (body c r t) = obs t)
    (heq : ∀ t, obs (body col row t) = g (obs t)) : obs (forRect w h body s) = g (obs s) :=
  forRange_one (obs := obs) hr
    (fun r _ hr' hn => forRange_none fun c t hc' => hne c r t hc' hr' fun he => hn he.2)
    fun _ => forRange_one (obs := obs) hc (fun c t hc' hn => hne c row t hc' hr fun he => hn he.1) heq

theorem forRect_none {α : Type} {obs : σ → α} {w h : Nat} {body : Nat → Nat → σ → σ} {s : σ}
    (hne : ∀ c r t, c < w → r < h → obs (body c r t) = obs t) : obs (forRect w h body s) = obs s :=
  forRange_none fun r _ hr => forRange_none fun c t hc => hne c r t hc hr

/-- An empty rectangle is not traversed. -/
theorem forRect_empty {w h : Nat} {body : Nat → Nat → σ → σ} {s : σ} (he : w = 0 ∨ h = 0) :
    forRect w h body s = s := by
  rcases he with rfl | rfl
  · exact forRange_none (obs := id) fun _ _ _ => rfl
  · rfl

end Sys2Proof.Machine
end

