-- ==== Sys2Proof/Laws/State.lean ====
section
/-! SUPPORT. One lemma per field per update of State, and per field of State.reset, all true by rfl. -/

namespace Sys2Proof.Machine

@[simp] theorem State.setMem_regs (s : State) (m : Memory) : (s.setMem m).regs = s.regs := rfl
@[simp] theorem State.setMem_mem (s : State) (m : Memory) : (s.setMem m).mem = m := rfl
@[simp] theorem State.setMem_host (s : State) (m : Memory) : (s.setMem m).host = s.host := rfl
@[simp] theorem State.setMem_reads (s : State) (m : Memory) : (s.setMem m).reads = s.reads := rfl
@[simp] theorem State.setMem_freeCount (s : State) (m : Memory) : (s.setMem m).freeCount = s.freeCount := rfl

@[simp] theorem State.setRegs_regs (s : State) (r : RegFile) : (s.setRegs r).regs = r := rfl
@[simp] theorem State.setRegs_mem (s : State) (r : RegFile) : (s.setRegs r).mem = s.mem := rfl
@[simp] theorem State.setRegs_host (s : State) (r : RegFile) : (s.setRegs r).host = s.host := rfl
@[simp] theorem State.setRegs_reads (s : State) (r : RegFile) : (s.setRegs r).reads = s.reads := rfl
@[simp] theorem State.setRegs_freeCount (s : State) (r : RegFile) : (s.setRegs r).freeCount = s.freeCount := rfl

@[simp] theorem State.setHost_regs (s : State) (l : List HostAction) : (s.setHost l).regs = s.regs := rfl
@[simp] theorem State.setHost_mem (s : State) (l : List HostAction) : (s.setHost l).mem = s.mem := rfl
@[simp] theorem State.setHost_host (s : State) (l : List HostAction) : (s.setHost l).host = l := rfl
@[simp] theorem State.setHost_reads (s : State) (l : List HostAction) : (s.setHost l).reads = s.reads := rfl
@[simp] theorem State.setHost_freeCount (s : State) (l : List HostAction) : (s.setHost l).freeCount = s.freeCount := rfl

@[simp] theorem State.logRead_regs (s : State) (d : HostDatum) : (s.logRead d).regs = s.regs := rfl
@[simp] theorem State.logRead_mem (s : State) (d : HostDatum) : (s.logRead d).mem = s.mem := rfl
@[simp] theorem State.logRead_host (s : State) (d : HostDatum) : (s.logRead d).host = s.host := rfl
@[simp] theorem State.logRead_reads (s : State) (d : HostDatum) : (s.logRead d).reads = s.reads ++ [d] := rfl
@[simp] theorem State.logRead_freeCount (s : State) (d : HostDatum) : (s.logRead d).freeCount = s.freeCount := rfl

@[simp] theorem State.useFree_regs (s : State) (n : Nat) : (s.useFree n).regs = s.regs := rfl
@[simp] theorem State.useFree_mem (s : State) (n : Nat) : (s.useFree n).mem = s.mem := rfl
@[simp] theorem State.useFree_host (s : State) (n : Nat) : (s.useFree n).host = s.host := rfl
@[simp] theorem State.useFree_reads (s : State) (n : Nat) : (s.useFree n).reads = s.reads := rfl
@[simp] theorem State.useFree_freeCount (s : State) (n : Nat) : (s.useFree n).freeCount = s.freeCount + n := rfl

@[simp] theorem State.raiseIllegal_regs (s : State) : s.raiseIllegal.regs = { s.regs with ill := true } := rfl
@[simp] theorem State.raiseIllegal_mem (s : State) : s.raiseIllegal.mem = s.mem := rfl
@[simp] theorem State.raiseIllegal_host (s : State) : s.raiseIllegal.host = s.host := rfl
@[simp] theorem State.raiseIllegal_reads (s : State) : s.raiseIllegal.reads = s.reads := rfl
@[simp] theorem State.raiseIllegal_freeCount (s : State) : s.raiseIllegal.freeCount = s.freeCount := rfl

@[simp] theorem State.ackIllegal_regs (s : State) (wdata : Word) : (s.ackIllegal wdata).regs = { s.regs with ill := s.regs.ill && !wdata.getLsbD 0 } := rfl
@[simp] theorem State.ackIllegal_mem (s : State) (wdata : Word) : (s.ackIllegal wdata).mem = s.mem := rfl
@[simp] theorem State.ackIllegal_host (s : State) (wdata : Word) : (s.ackIllegal wdata).host = s.host := rfl
@[simp] theorem State.ackIllegal_reads (s : State) (wdata : Word) : (s.ackIllegal wdata).reads = s.reads := rfl
@[simp] theorem State.ackIllegal_freeCount (s : State) (wdata : Word) : (s.ackIllegal wdata).freeCount = s.freeCount := rfl

@[simp] theorem State.blockReset_regs (s : State) : s.blockReset.regs = RegFile.reset := rfl
@[simp] theorem State.blockReset_mem (s : State) : s.blockReset.mem = s.mem := rfl
@[simp] theorem State.blockReset_host (s : State) : s.blockReset.host = s.host := rfl
@[simp] theorem State.blockReset_reads (s : State) : s.blockReset.reads = s.reads := rfl
@[simp] theorem State.blockReset_freeCount (s : State) : s.blockReset.freeCount = s.freeCount := rfl

@[simp] theorem State.reset_regs : State.reset.regs = RegFile.reset := rfl
@[simp] theorem State.reset_mem : State.reset.mem = [] := rfl
@[simp] theorem State.reset_host : State.reset.host = [] := rfl
@[simp] theorem State.reset_reads : State.reset.reads = [] := rfl
@[simp] theorem State.reset_freeCount : State.reset.freeCount = 0 := rfl

/-- Storing the memory a state has changes nothing. -/
@[simp] theorem State.setMem_self (s : State) : s.setMem s.mem = s := rfl

@[simp] theorem State.setMem_setMem (s : State) (m m' : Memory) : (s.setMem m).setMem m' = s.setMem m' := rfl

@[simp] theorem State.setHost_setHost (s : State) (l l' : List HostAction) :
    (s.setHost l).setHost l' = s.setHost l' := rfl

@[simp] theorem State.setRegs_setRegs (s : State) (r r' : RegFile) : (s.setRegs r).setRegs r' = s.setRegs r' := rfl

end Sys2Proof.Machine
end

