-- ==== Sys2Proof/Laws/Memory.lean ====
section
/-! SUPPORT. Memory: what a read gives after a write, what every operation leaves alone, and that each keeps the canonical
form. -/

namespace Sys2Proof.Machine

theorem lookupCell_eraseCell (m : List Host.Cell) (k j : Nat) :
    lookupCell (eraseCell m k) j = if j = k then none else lookupCell m j := by
  induction m with
  | nil => simp [eraseCell, lookupCell]
  | cons c m ih =>
    by_cases hc : c.1 = k
    · rw [eraseCell, if_pos hc, ih]
      by_cases hj : j = k
      · simp [hj]
      · rw [if_neg hj, if_neg hj, lookupCell, if_neg (by omega)]
    · rw [eraseCell, if_neg hc, lookupCell, lookupCell, ih]
      by_cases hj : c.1 = j
      · rw [if_pos hj, if_pos hj, if_neg (by omega)]
      · rw [if_neg hj, if_neg hj]

theorem lookupCell_insertCell (m : List Host.Cell) (k j : Nat) (v : Byte) (hm : ∀ c ∈ m, c.1 ≠ k) :
    lookupCell (insertCell m k v) j = if j = k then some v else lookupCell m j := by
  induction m with
  | nil =>
    simp only [insertCell, lookupCell]
    by_cases h : j = k
    · simp [h]
    · rw [if_neg h, if_neg fun e => h e.symm]
  | cons c m ih =>
    have hc : c.1 ≠ k := hm c List.mem_cons_self
    rw [insertCell]
    split
    · by_cases h : j = k
      · simp [lookupCell, h]
      · rw [lookupCell, if_neg fun e => h e.symm, if_neg h]
    · rw [lookupCell, ih fun d hd => hm d (List.mem_cons_of_mem c hd), lookupCell]
      by_cases h : j = k
      · rw [if_pos h, if_pos h, if_neg (by omega)]
      · rw [if_neg h, if_neg h]

theorem mem_eraseCell {m : List Host.Cell} {k : Nat} {c : Host.Cell} (h : c ∈ eraseCell m k) : c ∈ m ∧ c.1 ≠ k := by
  induction m with
  | nil => simp [eraseCell] at h
  | cons d m ih =>
    rw [eraseCell] at h
    split at h
    · exact ⟨List.mem_cons_of_mem d (ih h).1, (ih h).2⟩
    · rcases List.mem_cons.1 h with rfl | h
      · exact ⟨List.mem_cons_self, ‹_›⟩
      · exact ⟨List.mem_cons_of_mem d (ih h).1, (ih h).2⟩

theorem mem_insertCell {m : List Host.Cell} {k : Nat} {v : Byte} {c : Host.Cell} (h : c ∈ insertCell m k v) :
    c = (k, v) ∨ c ∈ m := by
  induction m with
  | nil => simpa [insertCell] using h
  | cons d m ih =>
    rw [insertCell] at h
    split at h
    · exact List.mem_cons.1 h
    · rcases List.mem_cons.1 h with rfl | h
      · exact .inr List.mem_cons_self
      · exact (ih h).imp id (List.mem_cons_of_mem d)

/-- What a write leaves written. -/
@[simp] theorem Memory.written_write (m : Memory) (a b : Addr) (v : Byte) :
    (m.write a v).written b = if b = a then some v else m.written b := by
  simp only [Memory.written, Memory.write]
  rw [lookupCell_insertCell _ _ _ _ fun c hc => (mem_eraseCell hc).2, lookupCell_eraseCell]
  simp only [BitVec.toNat_inj]
  split <;> rfl

/-- A read gives the byte written, and the power-on byte where there is none. -/
theorem Memory.read_of_written {m : Memory} {a : Addr} {v : Byte} (h : m.written a = some v) : m.read a = v := by
  rw [Memory.read, h, Option.getD_some]

theorem Memory.read_of_not_written {m : Memory} {a : Addr} (h : m.written a = none) : m.read a = unlistedByte a := by
  rw [Memory.read, h, Option.getD_none]

@[simp] theorem Memory.written_nil (a : Addr) : Memory.written [] a = none := rfl

/-- The one law of memory: a read after a write. -/
@[simp] theorem Memory.read_write (m : Memory) (a b : Addr) (v : Byte) :
    (m.write a v).read b = if b = a then v else m.read b := by
  rw [Memory.read, Memory.written_write]
  split <;> rfl

theorem pairwise_eraseCell {m : List Host.Cell} {k : Nat} (h : m.Pairwise (fun c d => c.1 < d.1)) :
    (eraseCell m k).Pairwise (fun c d => c.1 < d.1) := by
  induction m with
  | nil => exact List.Pairwise.nil
  | cons c m ih =>
    rw [eraseCell]
    have h' := List.pairwise_cons.1 h
    split
    · exact ih h'.2
    · exact List.pairwise_cons.2 ⟨fun d hd => h'.1 d (mem_eraseCell hd).1, ih h'.2⟩

theorem pairwise_insertCell {m : List Host.Cell} {k : Nat} {v : Byte} (h : m.Pairwise (fun c d => c.1 < d.1))
    (hk : ∀ c ∈ m, c.1 ≠ k) : (insertCell m k v).Pairwise (fun c d => c.1 < d.1) := by
  induction m with
  | nil => exact List.pairwise_singleton _ _
  | cons c m ih =>
    have h' := List.pairwise_cons.1 h
    have hc : c.1 ≠ k := hk c List.mem_cons_self
    rw [insertCell]
    split
    · rename_i hlt
      refine List.pairwise_cons.2 ⟨fun d hd => ?_, h⟩
      rcases List.mem_cons.1 hd with rfl | hd
      · exact hlt
      · exact Nat.lt_trans hlt (h'.1 d hd)
    · refine List.pairwise_cons.2 ⟨fun d hd => ?_, ih h'.2 fun d hd => hk d (List.mem_cons_of_mem c hd)⟩
      rcases mem_insertCell hd with rfl | hd
      · show c.1 < k
        omega
      · exact h'.1 d hd

/-- The empty list is in canonical form. -/
theorem Memory.wf_nil : Memory.wf [] := ⟨List.Pairwise.nil, by simp⟩

/-- A write keeps the canonical form. -/
theorem Memory.wf_write {m : Memory} (h : m.wf) (a : Addr) (v : Byte) : (m.write a v).wf := by
  have he : (eraseCell m a.toNat).Pairwise (fun c d => c.1 < d.1) := pairwise_eraseCell h.1
  refine ⟨pairwise_insertCell he fun c hc => (mem_eraseCell hc).2, fun c hc => ?_⟩
  rcases mem_insertCell hc with rfl | hc
  · exact a.isLt
  · exact h.2 c (mem_eraseCell hc).1

theorem Memory.wf_writeBytes {m : Memory} (h : m.wf) (a : Addr) (bs : List Byte) : (m.writeBytes a bs).wf := by
  induction bs generalizing m a with
  | nil => exact h
  | cons b bs ih => exact ih (Memory.wf_write h a b) _

/-! ## Addresses -/

@[simp] theorem addrPlus_zero (a : Addr) : addrPlus a 0 = a := by simp [addrPlus]

theorem addrPlus_addrPlus (a : Addr) (n k : Nat) : addrPlus (addrPlus a n) k = addrPlus a (n + k) := by
  simp only [addrPlus, BitVec.add_assoc, BitVec.ofNat_add]

/-- Two offsets below 2^32 give the same address only if they are the same. -/
theorem addrPlus_inj {a : Addr} {n k : Nat} (hn : n < 2 ^ 32) (hk : k < 2 ^ 32) (h : addrPlus a n = addrPlus a k) :
    n = k := by
  have h' : BitVec.ofNat 32 n = BitVec.ofNat 32 k := by
    simpa [addrPlus] using h
  have := congrArg BitVec.toNat h'
  rwa [BitVec.toNat_ofNat, BitVec.toNat_ofNat, Nat.mod_eq_of_lt hn, Nat.mod_eq_of_lt hk] at this

theorem addrPlus_sub (a : Addr) (n : Nat) : (addrPlus a n - a).toNat = n % 2 ^ 32 := by
  have : addrPlus a n - a = BitVec.ofNat 32 n := by
    simp only [addrPlus]
    rw [BitVec.add_comm, BitVec.add_sub_cancel]
  rw [this, BitVec.toNat_ofNat]

/-- Every address is its own offset from any base. -/
theorem addrPlus_of_sub (a b : Addr) : addrPlus b (a - b).toNat = a := by
  simp only [addrPlus, BitVec.ofNat_toNat, BitVec.setWidth_eq]
  rw [BitVec.add_comm, BitVec.sub_add_cancel]

/-! ## Regions -/

/-- A region is the addresses `(base + i) mod 2^32` for `i < len` (20_memory.md R46 to R49). -/
theorem inRegion_iff {base : Addr} {len : Nat} {a : Addr} : inRegion base len a = true ↔ ∃ i < len, a = addrPlus base i := by
  simp only [inRegion, decide_eq_true_eq]
  constructor
  · intro h
    exact ⟨_, h, (addrPlus_of_sub a base).symm⟩
  · rintro ⟨i, hi, rfl⟩
    rw [addrPlus_sub]
    exact Nat.lt_of_le_of_lt (Nat.mod_le _ _) hi

@[simp] theorem inRegion_empty (base a : Addr) : inRegion base 0 a = false := by simp [inRegion]

theorem not_overlap_empty_left (b₁ b₂ : Addr) (n : Nat) : regionsOverlap b₁ 0 b₂ n = false := by
  simp [regionsOverlap]

theorem not_overlap_empty_right (b₁ b₂ : Addr) (n : Nat) : regionsOverlap b₁ n b₂ 0 = false := by
  simp [regionsOverlap]

/-! ## Free values in memory -/

theorem freeFill_read_outside {m : Memory} {base : Addr} {len n : Nat} {a : Addr} (h : inRegion base len a = false) :
    (freeFill m base len n).read a = m.read a := by
  refine forRange_none (obs := fun m => Memory.read m a) fun i t hi => ?_
  rw [Memory.read_write, if_neg]
  intro e
  exact Bool.false_ne_true (h.symm.trans (inRegion_iff.2 ⟨i, hi, e⟩))

theorem wf_freeFill {m : Memory} (h : m.wf) (base : Addr) (len n : Nat) : (freeFill m base len n).wf :=
  forRange_keeps (P := Memory.wf) h fun _ _ _ ht => Memory.wf_write ht _ _

@[simp] theorem State.freeRegion_regs (s : State) (base : Addr) (len : Nat) :
    (s.freeRegion base len).regs = s.regs := rfl
@[simp] theorem State.freeRegion_mem (s : State) (base : Addr) (len : Nat) :
    (s.freeRegion base len).mem = freeFill s.mem base len s.freeCount := rfl
@[simp] theorem State.freeRegion_host (s : State) (base : Addr) (len : Nat) :
    (s.freeRegion base len).host = s.host := rfl
@[simp] theorem State.freeRegion_reads (s : State) (base : Addr) (len : Nat) :
    (s.freeRegion base len).reads = s.reads := rfl
@[simp] theorem State.freeRegion_freeCount (s : State) (base : Addr) (len : Nat) :
    (s.freeRegion base len).freeCount = s.freeCount + len := rfl

theorem wf_mixRegion {old : Memory} (h : old.wf) (new : Memory) (base : Addr) (len n : Nat) :
    (mixRegion old new base len n).wf := by
  refine forRange_keeps (P := Memory.wf) h fun i t _ ht => ?_
  split
  · exact Memory.wf_write ht _ _
  · exact ht

end Sys2Proof.Machine
end

