-- ==== Sys2Proof/Laws/Pixel.lean ====
section
/-! SUPPORT. Pixels: which bytes a pixel is, that different pixels of the canvas share none, and what the two pixel
primitives do. -/

namespace Sys2Proof.Machine

@[simp] theorem canvasW_eq : Config.canvasW = 1280 := rfl
@[simp] theorem canvasH_eq : Config.canvasH = 720 := rfl
@[simp] theorem fbBpp_eq : Config.fbBpp = 4 := rfl
@[simp] theorem fbBytes_eq : Config.fbBytes = 3686400 := rfl
@[simp] theorem shadowRows_eq : Config.shadowRows = 4 := rfl
@[simp] theorem rsChannels_eq : Config.rsChannels = 3 := rfl

theorem inCanvas_iff {x y : Int} : inCanvas x y = true ↔ 0 ≤ x ∧ x < 1280 ∧ 0 ≤ y ∧ y < 720 := by
  simp only [inCanvas, Bool.and_eq_true, decide_eq_true_eq, and_assoc]
  exact Iff.rfl

/-- The largest pixel offset is 3 686 396 (40_blend.md R81). -/
theorem pixelOffset_le {x y : Int} (h : inCanvas x y = true) : pixelOffset x y ≤ 3686396 := by
  have := inCanvas_iff.1 h
  simp only [pixelOffset, canvasW_eq, fbBpp_eq]
  omega

/-- A byte of one canvas pixel is a byte of no other: the pixel and the channel follow from the address. -/
theorem pixelByte_inj {fb : Addr} {x y x' y' : Int} {k k' : Nat} (h : inCanvas x y = true) (h' : inCanvas x' y' = true)
    (hk : k < 4) (hk' : k' < 4) (e : addrPlus (pixelAddr fb x y) k = addrPlus (pixelAddr fb x' y') k') :
    x = x' ∧ y = y' ∧ k = k' := by
  have h1 := pixelOffset_le h
  have h2 := pixelOffset_le h'
  simp only [pixelAddr, addrPlus_addrPlus] at e
  have e := addrPlus_inj (by omega) (by omega) e
  have := inCanvas_iff.1 h
  have := inCanvas_iff.1 h'
  simp only [pixelOffset, canvasW_eq, fbBpp_eq] at e
  omega

/-- Every byte of a canvas pixel lies in the framebuffer region (20_memory.md R46). -/
theorem pixelByte_inRegion {fb : Addr} {x y : Int} {k : Nat} (h : inCanvas x y = true) (hk : k < 4) :
    inRegion fb Config.fbBytes (addrPlus (pixelAddr fb x y) k) = true := by
  have := pixelOffset_le h
  refine inRegion_iff.2 ⟨pixelOffset x y + k, ?_, ?_⟩
  · simp only [fbBytes_eq]; omega
  · rw [pixelAddr, addrPlus_addrPlus]

/-- Every byte of the framebuffer region is a byte of a canvas pixel. -/
theorem inRegion_pixelByte {fb a : Addr} (h : inRegion fb Config.fbBytes a = true) :
    ∃ x y k, inCanvas x y = true ∧ k < 4 ∧ a = addrPlus (pixelAddr fb x y) k := by
  obtain ⟨i, hi, rfl⟩ := inRegion_iff.1 h
  simp only [fbBytes_eq] at hi
  refine ⟨((i / 4 % 1280 : Nat) : Int), ((i / 5120 : Nat) : Int), i % 4, inCanvas_iff.2 (by omega), by omega, ?_⟩
  rw [pixelAddr, addrPlus_addrPlus]
  congr 1
  simp only [pixelOffset, canvasW_eq, fbBpp_eq, Int.toNat_natCast]
  omega

/-- The channel of a pixel that its byte `k` holds. -/
def Color.byte (c : Color) (k : Nat) : Byte :=
  match k with
  | 0 => c.r
  | 1 => c.g
  | 2 => c.b
  | _ => c.a

theorem read_storePixel_outside {m : Memory} {p a : Addr} {c : Color} (h : ∀ k < 4, a ≠ addrPlus p k) :
    (storePixel m p c).read a = m.read a := by
  have h0 := h 0 (by omega)
  have h1 := h 1 (by omega)
  have h2 := h 2 (by omega)
  have h3 := h 3 (by omega)
  rw [addrPlus_zero] at h0
  simp only [storePixel, pixelBytes, Memory.writeBytes, addrPlus_addrPlus, Nat.reduceAdd, Memory.read_write,
    if_neg h0, if_neg h1, if_neg h2, if_neg h3]

theorem read_storePixel_byte (m : Memory) (p : Addr) (c : Color) {k : Nat} (hk : k < 4) :
    (storePixel m p c).read (addrPlus p k) = c.byte k := by
  have hne : ∀ i j : Nat, i < 4 → j < 4 → i ≠ j → addrPlus p i ≠ addrPlus p j := fun i j hi hj hij e =>
    hij (addrPlus_inj (by omega) (by omega) e)
  have h0 : ∀ j : Nat, j < 4 → j ≠ 0 → p ≠ addrPlus p j := fun j hj hj0 e =>
    hne 0 j (by omega) hj (Ne.symm hj0) (by rwa [addrPlus_zero])
  simp only [storePixel, pixelBytes, Memory.writeBytes, addrPlus_addrPlus, Nat.reduceAdd, Memory.read_write]
  match k, hk with
  | 0, _ => simp [h0 3, h0 2, h0 1, Color.byte]
  | 1, _ => simp [hne 1 3, hne 1 2, Color.byte]
  | 2, _ => simp [hne 2 3, Color.byte]
  | 3, _ => simp [Color.byte]

@[simp] theorem loadPixel_storePixel (m : Memory) (p : Addr) (c : Color) : loadPixel (storePixel m p c) p = c := by
  have h0 := read_storePixel_byte m p c (k := 0) (by omega)
  have h1 := read_storePixel_byte m p c (k := 1) (by omega)
  have h2 := read_storePixel_byte m p c (k := 2) (by omega)
  have h3 := read_storePixel_byte m p c (k := 3) (by omega)
  rw [addrPlus_zero] at h0
  simp only [loadPixel, h0, h1, h2, h3, Color.byte]

/-- A pixel depends on its four bytes only. -/
theorem loadPixel_congr {m m' : Memory} {p : Addr} (h : ∀ k < 4, m.read (addrPlus p k) = m'.read (addrPlus p k)) :
    loadPixel m p = loadPixel m' p := by
  have h0 := h 0 (by omega)
  rw [addrPlus_zero] at h0
  simp only [loadPixel, h0, h 1 (by omega), h 2 (by omega), h 3 (by omega)]

theorem wf_storePixel {m : Memory} (h : m.wf) (p : Addr) (c : Color) : (storePixel m p c).wf := Memory.wf_writeBytes h _ _

/-- A byte that is no byte of the pixel is left alone by both primitives. -/
theorem read_putBlend_outside {fb : Addr} {x y : Int} {c : Color} {m : Memory} {a : Addr}
    (h : inCanvas x y = true → ∀ k < 4, a ≠ addrPlus (pixelAddr fb x y) k) : (putBlend fb x y c m).read a = m.read a := by
  rw [putBlend]
  split
  · exact read_storePixel_outside (h ‹_›)
  · rfl

theorem read_putRaw_outside {fb : Addr} {x y : Int} {c : Color} {m : Memory} {a : Addr}
    (h : inCanvas x y = true → ∀ k < 4, a ≠ addrPlus (pixelAddr fb x y) k) : (putRaw fb x y c m).read a = m.read a := by
  rw [putRaw]
  split
  · exact read_storePixel_outside (h ‹_›)
  · rfl

/-- A byte outside the framebuffer region is left alone by both primitives (20_memory.md R46). -/
theorem read_putBlend_outside_fb {fb : Addr} {x y : Int} {c : Color} {m : Memory} {a : Addr}
    (h : inRegion fb Config.fbBytes a = false) : (putBlend fb x y c m).read a = m.read a :=
  read_putBlend_outside fun hc k hk e => by
    rw [e, pixelByte_inRegion hc hk] at h
    exact Bool.false_ne_true h.symm

theorem read_putRaw_outside_fb {fb : Addr} {x y : Int} {c : Color} {m : Memory} {a : Addr}
    (h : inRegion fb Config.fbBytes a = false) : (putRaw fb x y c m).read a = m.read a :=
  read_putRaw_outside fun hc k hk e => by
    rw [e, pixelByte_inRegion hc hk] at h
    exact Bool.false_ne_true h.symm

/-- Both primitives leave every other pixel of the canvas alone. -/
theorem loadPixel_putBlend_other {fb : Addr} {x y x' y' : Int} {c : Color} {m : Memory} (h' : inCanvas x' y' = true)
    (hne : ¬(x = x' ∧ y = y')) : loadPixel (putBlend fb x y c m) (pixelAddr fb x' y') = loadPixel m (pixelAddr fb x' y') :=
  loadPixel_congr fun _ hk => read_putBlend_outside fun hc _ hj e =>
    hne ⟨(pixelByte_inj h' hc hk hj e).1.symm, (pixelByte_inj h' hc hk hj e).2.1.symm⟩

theorem loadPixel_putRaw_other {fb : Addr} {x y x' y' : Int} {c : Color} {m : Memory} (h' : inCanvas x' y' = true)
    (hne : ¬(x = x' ∧ y = y')) : loadPixel (putRaw fb x y c m) (pixelAddr fb x' y') = loadPixel m (pixelAddr fb x' y') :=
  loadPixel_congr fun _ hk => read_putRaw_outside fun hc _ hj e =>
    hne ⟨(pixelByte_inj h' hc hk hj e).1.symm, (pixelByte_inj h' hc hk hj e).2.1.symm⟩

/-- What the two primitives make of their own pixel. -/
theorem loadPixel_putBlend {fb : Addr} {x y : Int} (c : Color) (m : Memory) (h : inCanvas x y = true) :
    loadPixel (putBlend fb x y c m) (pixelAddr fb x y) = blendPixel (loadPixel m (pixelAddr fb x y)) c := by
  rw [putBlend, if_pos h, loadPixel_storePixel]

theorem loadPixel_putRaw {fb : Addr} {x y : Int} (c : Color) (m : Memory) (h : inCanvas x y = true) :
    loadPixel (putRaw fb x y c m) (pixelAddr fb x y) = c := by
  rw [putRaw, if_pos h, loadPixel_storePixel]

theorem wf_putBlend {m : Memory} (h : m.wf) (fb : Addr) (x y : Int) (c : Color) : (putBlend fb x y c m).wf := by
  rw [putBlend]
  split
  · exact wf_storePixel h _ _
  · exact h

theorem wf_putRaw {m : Memory} (h : m.wf) (fb : Addr) (x y : Int) (c : Color) : (putRaw fb x y c m).wf := by
  rw [putRaw]
  split
  · exact wf_storePixel h _ _
  · exact h

end Sys2Proof.Machine
end

