-- ==== Sys2Proof/Laws/Exec.lean ====
section
/-! SUPPORT. What the end of a command and the loops of the three units can do: which bytes they leave alone, and that they
keep the canonical form. -/

namespace Sys2Proof.Machine

/-! ## The end of a command that reads a source buffer -/

@[simp] theorem finishFrom_regs (i : Instr) (m : Memory) (s : State) : (finishFrom i m s).regs = s.regs := by
  rw [finishFrom]; split <;> rfl

@[simp] theorem finishFrom_host (i : Instr) (m : Memory) (s : State) : (finishFrom i m s).host = s.host := by
  rw [finishFrom]; split <;> rfl

@[simp] theorem finishFrom_reads (i : Instr) (m : Memory) (s : State) : (finishFrom i m s).reads = s.reads := by
  rw [finishFrom]; split <;> rfl

/-- Where the launch obligations hold, the command ends in the pseudocode's memory and nothing else changes. -/
theorem finishFrom_defined {i : Instr} {s : State} (m : Memory) (h : launchDefined i s.regs = true) :
    finishFrom i m s = s.setMem m := by
  rw [finishFrom, if_pos h]

/-- Where they do not, the bytes outside the two regions are untouched. -/
theorem finishFrom_undefined_outside {i : Instr} {s : State} {m : Memory} {a : Addr}
    (h : launchDefined i s.regs = false)
    (hs : inRegion (sourceRegion i s.regs).1 (sourceRegion i s.regs).2 a = false)
    (hw : inRegion (writtenRegion i s.regs).1 (writtenRegion i s.regs).2 a = false) :
    (finishFrom i m s).mem.read a = s.mem.read a := by
  rw [finishFrom, if_neg (by rw [h]; exact Bool.false_ne_true), State.freeRegion_mem, freeFill_read_outside hw,
    State.freeRegion_mem, freeFill_read_outside hs]

theorem wf_finishFrom {i : Instr} {s : State} {m : Memory} (hm : m.wf) (hs : s.mem.wf) : (finishFrom i m s).mem.wf := by
  rw [finishFrom]
  split
  · exact hm
  · exact wf_freeFill (wf_freeFill hs _ _ _) _ _ _

/-- Launch obligations in terms of addresses: no byte lies in both regions. -/
theorem launchDefined_apart {i : Instr} {r : RegFile} (h : launchDefined i r = true) {a : Addr}
    (hs : inRegion (sourceRegion i r).1 (sourceRegion i r).2 a = true) :
    inRegion (writtenRegion i r).1 (writtenRegion i r).2 a = false := by
  simp only [launchDefined, regionsOverlap, Bool.and_eq_true, Bool.not_eq_true', decide_eq_true_eq] at h
  by_contra hw
  rw [Bool.not_eq_false] at hw
  have hov := h.1
  simp only [inRegion, decide_eq_true_eq, Bool.and_eq_false_iff, decide_eq_false_iff_not, Bool.or_eq_false_iff] at hs hw hov
  have h1 : 0 < (sourceRegion i r).2 := by omega
  have h2 : 0 < (writtenRegion i r).2 := by omega
  rcases hov with (hov | hov) | ⟨hov1, hov2⟩
  · exact hov h1
  · exact hov h2
  · bv_omega

/-! ## The loops -/

theorem wf_coverLoop {m : Memory} (h : m.wf) (r : RegFile) : (coverLoop r m).wf :=
  forRect_keeps (P := Memory.wf) h fun _ _ _ _ _ ht => wf_putBlend ht _ _ _ _

theorem wf_blitLoop {m : Memory} (h : m.wf) (fmt : PixelFormat) (r : RegFile) : (blitLoop fmt r m).wf :=
  forRect_keeps (P := Memory.wf) h fun _ _ _ _ _ ht => wf_putBlend ht _ _ _ _

theorem wf_shadowRow {m : Memory} (h : m.wf) (r : RegFile) (k : Nat) : (shadowRow r k m).wf :=
  forRange_keeps (P := Memory.wf) h fun _ _ _ ht => wf_putBlend ht _ _ _ _

theorem wf_resizeLoop {m : Memory} (h : m.wf) (r : RegFile) : (resizeLoop r m).wf :=
  forRect_keeps (P := Memory.wf) h fun _ _ _ _ _ ht =>
    forRange_keeps (P := Memory.wf) ht fun _ _ _ hu => Memory.wf_write hu _ _

/-- The traversals of the framebuffer commands write no byte outside the framebuffer (20_memory.md R46). -/
theorem read_coverLoop_outside {r : RegFile} {m : Memory} {a : Addr} (h : inRegion r.fbAddr Config.fbBytes a = false) :
    (coverLoop r m).read a = m.read a :=
  forRect_none (obs := fun m => Memory.read m a) fun _ _ _ _ _ => read_putBlend_outside_fb h

theorem read_blitLoop_outside {fmt : PixelFormat} {r : RegFile} {m : Memory} {a : Addr}
    (h : inRegion r.fbAddr Config.fbBytes a = false) : (blitLoop fmt r m).read a = m.read a :=
  forRect_none (obs := fun m => Memory.read m a) fun _ _ _ _ _ => read_putBlend_outside_fb h

theorem read_shadowRow_outside {r : RegFile} {k : Nat} {m : Memory} {a : Addr}
    (h : inRegion r.fbAddr Config.fbBytes a = false) : (shadowRow r k m).read a = m.read a :=
  forRange_none (obs := fun m => Memory.read m a) fun _ _ _ => read_putBlend_outside_fb h

/-- The offset of a destination byte lies below the region's length. -/
theorem sampleOffset_lt {w h col row k : Nat} (hc : col < w) (hr : row < h) (hk : k < 3) :
    (row * w + col) * 3 + k < w * h * 3 := by
  have : row * w + w ≤ w * h := by
    calc row * w + w = (row + 1) * w := by rw [Nat.add_mul, Nat.one_mul]
      _ ≤ h * w := Nat.mul_le_mul_right w hr
      _ = w * h := Nat.mul_comm h w
  omega

/-- Different samples of an image have different offsets. -/
theorem sampleOffset_inj {w col row k col' row' k' : Nat} (hc : col < w) (hc' : col' < w) (hk : k < 3) (hk' : k' < 3)
    (e : (row * w + col) * 3 + k = (row' * w + col') * 3 + k') : col = col' ∧ row = row' ∧ k = k' := by
  have e1 : row * w + col = row' * w + col' := by omega
  have hw : 0 < w := by omega
  have hrow : row = row' := by
    have := congrArg (· / w) e1
    simpa only [Nat.mul_comm _ w, Nat.mul_add_div hw, Nat.div_eq_of_lt hc, Nat.div_eq_of_lt hc', Nat.add_zero] using this
  subst hrow
  omega

/-- RESIZE writes no byte outside the destination region (20_memory.md R49). -/
theorem read_resizeLoop_outside {r : RegFile} {m : Memory} {a : Addr}
    (h : inRegion r.dstAddr r.resizeDstBytes a = false) : (resizeLoop r m).read a = m.read a := by
  refine forRect_none (obs := fun m => Memory.read m a) fun j i t hj hi => ?_
  refine forRange_none (obs := fun m => Memory.read m a) fun k t hk => ?_
  rw [Memory.read_write, if_neg]
  intro e
  have : inRegion r.dstAddr r.resizeDstBytes a = true :=
    inRegion_iff.2 ⟨_, sampleOffset_lt hj hi hk, e⟩
  exact Bool.false_ne_true (h.symm.trans this)

end Sys2Proof.Machine
end

