-- ==== Sys2Proof/Laws/Draw.lean ====
section
/-! SUPPORT. Drawing a rectangle pixel by pixel: what one pixel of it becomes, and which bytes stay. One lemma for all the
rectangle commands; the ones that read a source buffer also say that the bytes they read are the ones there at the start. -/

namespace Sys2Proof.Machine

/-- A traversal whose iteration `(c, r)` changes only pixel `(x + c, y + r)`, by `g c r`, changes that pixel by
`g c r`, once (40_blend.md R84). -/
theorem loadPixel_forRect {fb : Addr} {x y : Int} {w h : Nat} {m : Memory} {body : Nat → Nat → Memory → Memory}
    {g : Nat → Nat → Color → Color}
    (own : ∀ (c r : Nat) t, inCanvas (x + c) (y + r) = true →
      loadPixel (body c r t) (pixelAddr fb (x + c) (y + r)) = g c r (loadPixel t (pixelAddr fb (x + c) (y + r))))
    (other : ∀ (c r : Nat) t px py, inCanvas px py = true → ¬(x + c = px ∧ y + r = py) →
      loadPixel (body c r t) (pixelAddr fb px py) = loadPixel t (pixelAddr fb px py))
    {c r : Nat} (hc : c < w) (hr : r < h) (hin : inCanvas (x + c) (y + r) = true) :
    loadPixel (forRect w h body m) (pixelAddr fb (x + c) (y + r)) =
      g c r (loadPixel m (pixelAddr fb (x + c) (y + r))) :=
  forRect_one (obs := fun m => loadPixel m (pixelAddr fb (x + c) (y + r))) hc hr
    (fun _ _ t _ _ hne => other _ _ t _ _ hin (by omega)) fun t => own c r t hin

/-- The framebuffer bytes a source-reading traversal writes are no bytes of a source apart from the framebuffer, so each
pixel is blended with the colour read from the memory the command started with. -/
theorem loadPixel_blendFrom {r : RegFile} {m : Memory} {ink : Nat → Nat → Memory → Color}
    (stable : ∀ c row t, c < r.width → row < r.height →
      (∀ a, inRegion r.fbAddr Config.fbBytes a = false → Memory.read t a = m.read a) → ink c row t = ink c row m)
    {c row : Nat} (hc : c < r.width) (hr : row < r.height) (hin : inCanvas (r.posX + c) (r.posY + row) = true) :
    loadPixel
        (forRect r.width r.height (fun c row t => putBlend r.fbAddr (r.posX + c) (r.posY + row) (ink c row t) t) m)
        (pixelAddr r.fbAddr (r.posX + c) (r.posY + row)) =
      blendPixel (loadPixel m (pixelAddr r.fbAddr (r.posX + c) (r.posY + row))) (ink c row m) := by
  rw [forRect_congr_of (P := fun t => ∀ a, inRegion r.fbAddr Config.fbBytes a = false → Memory.read t a = m.read a)
    (body' := fun c row t => putBlend r.fbAddr (r.posX + c) (r.posY + row) (ink c row m) t) (fun _ _ => rfl)]
  · exact loadPixel_forRect (g := fun c row f => blendPixel f (ink c row m))
      (fun _ _ _ h => loadPixel_putBlend _ _ h) (fun _ _ _ _ _ h hne => loadPixel_putBlend_other h hne) hc hr hin
  · intro c row t _ _ ht a ha
    rw [read_putBlend_outside_fb ha]
    exact ht a ha
  · intro c row t h1 h2 ht
    rw [stable c row t h1 h2 ht]

/-- The coverage bytes lie in the coverage region (20_memory.md R47). -/
theorem pixelOffset_lt {w h c row : Nat} (hc : c < w) (hr : row < h) : row * w + c < w * h := by
  have : row * w + w ≤ w * h := by
    calc row * w + w = (row + 1) * w := by rw [Nat.add_mul, Nat.one_mul]
      _ ≤ h * w := Nat.mul_le_mul_right w hr
      _ = w * h := Nat.mul_comm h w
  omega

/-- The raw bytes of a source pixel lie in the source region (20_memory.md R48). -/
theorem imageOffset_lt {fmt : PixelFormat} {r : RegFile} {c row k : Nat} (hc : c < r.width) (hr : row < r.height)
    (hk : k < bpp fmt) : (row * r.width + c) * bpp fmt + k < r.imageBytes fmt := by
  have h1 : (row * r.width + c + 1) * bpp fmt ≤ r.width * r.height * bpp fmt :=
    Nat.mul_le_mul_right _ (pixelOffset_lt hc hr)
  rw [Nat.add_mul (row * r.width + c) 1, Nat.one_mul] at h1
  simp only [RegFile.imageBytes]
  omega

/-! ## The resampler's reads -/

/-- `GetPix` depends on the source region only (20_memory.md R49). -/
theorem getPix_congr {r : RegFile} {m m' : Memory}
    (h : ∀ a, inRegion r.srcAddr r.resizeSrcBytes a = true → m.read a = m'.read a) (z x : Int) {k : Nat} (hk : k < 3) :
    getPix r m z x k = getPix r m' z x k := by
  unfold getPix
  split
  · exact h _ (inRegion_iff.2 ⟨_, sampleOffset_lt (by omega) (by omega) hk, rfl⟩)
  · rfl

/-- So does an output byte of RESIZE. -/
theorem outSample_congr {r : RegFile} {m m' : Memory}
    (h : ∀ a, inRegion r.srcAddr r.resizeSrcBytes a = true → m.read a = m'.read a) (i j : Nat) {k : Nat} (hk : k < 3) :
    outSample r m i j k = outSample r m' i j k := by
  simp only [outSample, rowSample, getPix_congr h _ _ hk]

end Sys2Proof.Machine
end

