-- ==== Sys2Proof/Laws/HostPort.lean ====
section
/-! SUPPORT. The step in terms of the host's next action, and the register window: offsets and registers correspond. -/

namespace Sys2Proof.Machine

/-- With an action to come, a step is that action, in the state without it. -/
theorem step_cons {s : State} {a : HostAction} {rest : List HostAction} (h : s.host = a :: rest) :
    step s = act a (s.setHost rest) := by
  rw [step, stepBody, h]

/-- A `CMD` write runs its word. -/
theorem act_cmdWrite (word : Word) (s : State) : act (cmdWrite word) s = runCommand word s := rfl

/-- Every register is at its offset. -/
theorem regAt_regOffset (n : RegName) : regAt (regOffset n) = some n := by
  cases n <;> rfl

/-- No other offset holds it. -/
theorem regAt_eq_some {off : BitVec 6} {n : RegName} (h : regAt off = some n) : off = regOffset n := by
  have all : ∀ k : Fin 64, ∀ n, regAt (BitVec.ofFin k) = some n → (BitVec.ofFin k : BitVec 6) = regOffset n := by
    intro k n
    cases n <;> revert k <;> decide +kernel
  exact all off.toFin n h

/-- A defined access is a word access at an aligned offset. -/
theorem accessDefined_iff {off : BitVec 6} {width : AccessWidth} :
    accessDefined off width = true ↔ width = .word ∧ off.toNat % 4 = 0 := by
  cases width <;> simp [accessDefined, offsetAligned]

/-- A write to a register's offset reaches that register. -/
theorem act_regWrite (n : RegName) (v : Word) (s : State) : act (.regWrite (regOffset n) .word v) s = writeReg n v s := by
  have h : accessDefined (regOffset n) .word = true := by cases n <;> decide
  simp only [act, h, if_true, hostWrite, regAt_regOffset]

end Sys2Proof.Machine
end

