-- ==== Sys2Proof/Laws/PerInstr.lean ====
section
/-! SUPPORT. The statements made per command: family `WordFields`, the two fields of a command word (30_encoding.md R60). -/

namespace Sys2Proof.Laws.WordFields

/-- Bits 31:8 of the word are zero, and its `OP` is not zero: the all-zero word is no command's (30_encoding.md R60, R65). -/
def Statement (i : Instr) : Prop := zeroField (encode i) = 0 ∧ opField (encode i) = encodeOp i ∧ encodeOp i ≠ 0

theorem pblend : Statement .pblend := ⟨by decide, by decide, by decide⟩
theorem fill : Statement .fill := ⟨by decide, by decide, by decide⟩
theorem fillb : Statement .fillb := ⟨by decide, by decide, by decide⟩
theorem shadow : Statement .shadow := ⟨by decide, by decide, by decide⟩
theorem cblend : Statement .cblend := ⟨by decide, by decide, by decide⟩
theorem blitRgb24 : Statement .blitRgb24 := ⟨by decide, by decide, by decide⟩
theorem blitRgba32 : Statement .blitRgba32 := ⟨by decide, by decide, by decide⟩
theorem blitBgr24 : Statement .blitBgr24 := ⟨by decide, by decide, by decide⟩
theorem blitAbgr32 : Statement .blitAbgr32 := ⟨by decide, by decide, by decide⟩
theorem resize : Statement .resize := ⟨by decide, by decide, by decide⟩

end Sys2Proof.Laws.WordFields
end

