-- ==== Sys2Proof/Tests/Slice0.lean ====
section
/-! SUPPORT. Tests: the ill-formed terms the checks refuse, words written out from the spec's encoding, one step on small
states with the results of 95_test_vectors.md and of the rules' worked examples, and a witness for the hypotheses of each
statement. -/

namespace Sys2Proof.Tests

open Sys2Proof.Machine

/-- A state with the given registers and blocks of bytes, the rest as after reset. -/
def given (r : RegFile) (blocks : List (Addr × List Byte)) : State :=
  { State.reset with regs := r, mem := blocks.foldl (fun m b => Memory.writeBytes m b.1 b.2) [] }

/-- The state of a next outcome, the fallback otherwise. -/
def after (o : Host.Outcome State Fault Refusal) (fallback : State) : State :=
  match o with
  | .next t => t
  | .fault _ => fallback
  | .refused _ => fallback

/-- `n` bytes from an address after a command. -/
def bytesAfter (i : Instr) (s : State) (a : Addr) (n : Nat) : List Byte := (after (exec i s) s).mem.readBytes a n

/-- The state after the host's action `a`, from a state with the registers `r`. -/
def actOn (a : HostAction) (r : RegFile) : State := after (step { given r [] with host := [a] }) State.reset

/-- `RegFile.reset` under a short name. -/
def r0 : RegFile := RegFile.reset

/-! ## What the checks refuse -/

theorem test_wf_refuses_byte_write : HostAction.wellFormed (.regWrite 0x08#6 .byte 0) = false := by decide
theorem test_wf_refuses_half_read : HostAction.wellFormed (.regRead 0x08#6 .half) = false := by decide
theorem test_wf_refuses_misaligned_write : HostAction.wellFormed (.regWrite 0x09#6 .word 0) = false := by decide
theorem test_wf_refuses_misaligned_read : HostAction.wellFormed (.regRead 0x3E#6 .word) = false := by decide
theorem test_wf_admits_aligned_words :
    HostAction.wellFormed (.regWrite 0x34#6 .word 7) = true ∧ HostAction.wellFormed (.regRead 0x3C#6 .word) = true := by
  decide

/-! ## Words from the spec's encoding: 24 zero bits, then OP bit by bit (30_encoding.md R60, R62) -/

theorem test_decode_pblend : decode 0b00000000000000000000000000000001#32 = .ok .pblend := by decide
theorem test_decode_fill : decode 0b00000000000000000000000000000010#32 = .ok .fill := by decide
theorem test_decode_fillb : decode 0b00000000000000000000000000000011#32 = .ok .fillb := by decide
theorem test_decode_shadow : decode 0b00000000000000000000000000000100#32 = .ok .shadow := by decide
theorem test_decode_cblend : decode 0b00000000000000000000000000000101#32 = .ok .cblend := by decide
theorem test_decode_blitRgb24 : decode 0b00000000000000000000000000010000#32 = .ok .blitRgb24 := by decide
theorem test_decode_blitRgba32 : decode 0b00000000000000000000000000010001#32 = .ok .blitRgba32 := by decide
theorem test_decode_blitBgr24 : decode 0b00000000000000000000000000010010#32 = .ok .blitBgr24 := by decide
theorem test_decode_blitAbgr32 : decode 0b00000000000000000000000000010011#32 = .ok .blitAbgr32 := by decide
theorem test_decode_resize : decode 0b00000000000000000000000000100000#32 = .ok .resize := by decide

/-- The illegal words of 95_test_vectors.md section 2. -/
theorem test_decode_illegal :
    decode 0x00000000#32 = .error (.illegalCommand 0x00000000#32) ∧ decode 0x00000006#32 = .error (.illegalCommand 0x00000006#32) ∧
    decode 0x0000000F#32 = .error (.illegalCommand 0x0000000F#32) ∧ decode 0x00000014#32 = .error (.illegalCommand 0x00000014#32) ∧
    decode 0x00000021#32 = .error (.illegalCommand 0x00000021#32) ∧ decode 0x000000FF#32 = .error (.illegalCommand 0x000000FF#32) ∧
    decode 0x00000101#32 = .error (.illegalCommand 0x00000101#32) ∧ decode 0x80000002#32 = .error (.illegalCommand 0x80000002#32) ∧
    decode 0xFFFFFFFF#32 = .error (.illegalCommand 0xFFFFFFFF#32) := by decide

theorem test_decodeTableWord : decodeTableWord 32 0x13 = some .blitAbgr32 ∧ decodeTableWord 32 0x113 = none := by decide

/-- The fixed parameters agree with each other (00_scope.md R6). -/
theorem test_parameters :
    Config.fbStride = Config.canvasW * Config.fbBpp ∧ Config.fbBytes = Config.canvasH * Config.fbStride ∧
    Config.rsTaps = 4 := by decide

/-! ## The host interface (95_test_vectors.md section 2) -/

theorem test_write_x_reads_back_sign_extended :
    hostReadValue (actOn (.regWrite 0x10#6 .word 0x00018000) r0).regs 0x10#6 = 0xFFFF8000 ∧
    (actOn (.regWrite 0x10#6 .word 0x00018000) r0).regs.posX = -32768 := by decide

theorem test_write_y_reads_back_sign_extended :
    hostReadValue (actOn (.regWrite 0x14#6 .word 0xABCD8001) r0).regs 0x14#6 = 0xFFFF8001 := by decide

theorem test_write_dstH_is_unsigned :
    hostReadValue (actOn (.regWrite 0x34#6 .word 0x00008000) r0).regs 0x34#6 = 0x00008000 ∧
    (actOn (.regWrite 0x34#6 .word 0x00008000) r0).regs.dstHeight = 32768 := by decide

theorem test_write_color_fields :
    (actOn (.regWrite 0x0C#6 .word 0xDEADBEEF) r0).regs.ink = { r := 239, g := 190, b := 173, a := 222 } := by decide

theorem test_unmapped_and_cmd_read_zero :
    hostReadValue (actOn (.regWrite 0x38#6 .word 0x12345678) r0).regs 0x38#6 = 0 ∧ hostReadValue r0 0x00#6 = 0 := by decide

theorem test_illegal_word_sets_ill : statusWord (actOn (cmdWrite 0x00000101) r0).regs = 1 := by decide

theorem test_status_write_one_clears :
    statusWord (actOn (.regWrite 0x04#6 .word 0xFFFFFFFE) { r0 with ill := true }).regs = 1 ∧
    statusWord (actOn (.regWrite 0x04#6 .word 0xFFFFFFFF) { r0 with ill := true }).regs = 0 := by decide

theorem test_read_is_returned :
    (actOn (.regRead 0x14#6 .word) { r0 with y := 0xFFFE }).reads = [.word 0xFFFFFFFE] := by decide

theorem test_host_memory_read :
    (after (step { given r0 [(0x50, [7, 8])] with host := [.memRead 0x51] }) State.reset).reads = [.byte 8] := by decide

theorem test_reset_keeps_memory :
    (after (step { given { r0 with w := 3, ill := true } [(0x50, [7])] with host := [.reset] }) State.reset).regs = r0 ∧
    (after (step { given { r0 with w := 3, ill := true } [(0x50, [7])] with host := [.reset] }) State.reset).mem =
      [(0x50, 7)] := by decide

theorem test_memory_is_canonical :
    (given r0 [(5, [0, 9]), (2, [1]), (6, [0])]).mem = [(2, 1), (5, 0), (6, 0)] := by decide

/-! ## Blend8, Cubic and Q8 (95_test_vectors.md sections 3 and 7) -/

theorem test_blend8_truncates : blend8 10 200 128 = 105 ∧ blend8 0 1 254 = 0 ∧ blend8 254 255 128 = 254 := by decide

theorem test_cubicQ8_vectors :
    cubicQ8 0 100 200 0 1 2 = 168 ∧ cubicQ8 0 100 200 255 1 4 = 126 ∧ cubicQ8 0 100 200 0 3 4 = 191 ∧
    cubicQ8 0 255 255 0 1 2 = 255 ∧ cubicQ8 255 0 0 255 1 2 = 0 ∧ cubicQ8 0 33 100 0 2 3 = 86 := by decide

theorem test_cubic_is_exact :
    cubic 0 100 200 255 (1 / 4) = 16225 / 128 ∧ q8 (254999 / 1000) = 254 ∧ q8 (-1 / 1000) = 0 ∧ q8 1000 = 255 := by
  decide +kernel

/-! ## The alpha_blender unit -/

/-- R85's worked example: pixel (3, 2). -/
theorem test_pblend_mid_alpha :
    bytesAfter .pblend (given { r0 with x := 3, y := 2, color := 0x803264C8 } [(10252, [10, 20, 30, 40])]) 10252 4 =
      [105, 60, 40, 255] := by decide +kernel

/-- The address wrap, and the clip at X = 1280 (95_test_vectors.md section 4). -/
theorem test_pblend_wrap_and_clip :
    (after (exec .pblend (given { r0 with fbAddr := 0xFFFFFFFE, color := 0xFF030201 } [])) State.reset).mem =
      [(0, 3), (1, 255), (0xFFFFFFFE, 1), (0xFFFFFFFF, 2)] ∧
    (after (exec .pblend (given { r0 with x := 1280, color := 0xFF030201 } [])) State.reset).mem = [] := by decide +kernel

/-- The first FILL row of 95_test_vectors.md section 4: 8 of 12 positions clipped, the alpha byte stored as given. -/
theorem test_fill_clips_left_and_top :
    (after (exec .fill (given { r0 with fbAddr := 0x100000, x := 0xFFFE, y := 0xFFFF, w := 4, h := 3, color := 0x06070809 }
      [])) State.reset).mem =
      (given r0 [(0x100000, [9, 8, 7, 6, 9, 8, 7, 6]), (0x101400, [9, 8, 7, 6, 9, 8, 7, 6])]).mem := by decide +kernel

/-- R86's worked example: no wrap to the next row. -/
theorem test_fill_does_not_wrap :
    (after (exec .fill (given { r0 with x := 1278, w := 4, h := 1, color := 0x04030201 } [])) State.reset).mem =
      (given r0 [(5112, [1, 2, 3, 4, 1, 2, 3, 4])]).mem := by decide +kernel

/-- R87's worked example. -/
theorem test_fillb_blends :
    bytesAfter .fillb (given { r0 with w := 2, h := 1, color := 0x80000000 } [(0, [255, 255, 255, 255, 100, 50, 0, 7])]) 0 8 =
      [127, 127, 127, 255, 49, 24, 0, 255] := by decide +kernel

/-- FILLB at (-1, -1), 3 by 3: exactly the four pixels in the canvas. -/
theorem test_fillb_clips :
    (after (exec .fillb (given { r0 with x := 0xFFFF, y := 0xFFFF, w := 3, h := 3, color := 0xFF070605 } [])) State.reset).mem =
      (given r0 [(0, [5, 6, 7, 255, 5, 6, 7, 255]), (5120, [5, 6, 7, 255, 5, 6, 7, 255])]).mem := by decide +kernel

/-- W = 3: row 25 columns 10..12 at alpha 80, row 26 column 11 at alpha 60, nothing else. -/
theorem test_shadow_rows :
    (after (exec .shadow (given { r0 with x := 10, y := 20, w := 3, h := 5, color := 0x50000000 }
      [(128040, [200, 200, 200, 255, 0, 0, 0, 0, 0, 0, 0, 0]), (133160, [200, 200, 200, 9, 200, 200, 200, 255])])) State.reset).mem =
      (given r0 [(128040, [137, 137, 137, 255, 0, 0, 0, 255, 0, 0, 0, 255]),
        (133160, [200, 200, 200, 9, 152, 152, 152, 255])]).mem := by decide +kernel

/-- Band rows -3 to 0: only k = 3 lands in the canvas, columns 3 and 4 at alpha 20. -/
theorem test_shadow_clips_top :
    (after (exec .shadow (given { r0 with y := 0xFFFD, w := 8, color := 0x50000000 } [(12, [200, 200, 200, 9, 0, 0, 0, 0])])) State.reset).mem =
      (given r0 [(12, [184, 184, 184, 255, 0, 0, 0, 255])]).mem := by decide +kernel

/-- 95_test_vectors.md section 5, black background; the coverage row stride is W = 3. -/
theorem test_cblend_coverage_is_alpha :
    bytesAfter .cblend (given { r0 with fbAddr := 0x200000, y := 10, w := 3, h := 2, srcAddr := 0x5000, color := 0x000080FF }
        [(0x5000, [0, 64, 128, 192, 255, 1]), (0x20C800, List.replicate 12 0), (0x20DC00, List.replicate 12 0)]) 0x20C800 12 = [0, 0, 0, 255, 64, 32, 0, 255, 128, 64, 0, 255] ∧
    bytesAfter .cblend (given { r0 with fbAddr := 0x200000, y := 10, w := 3, h := 2, srcAddr := 0x5000, color := 0x000080FF }
        [(0x5000, [0, 64, 128, 192, 255, 1]), (0x20C800, List.replicate 12 0), (0x20DC00, List.replicate 12 0)]) 0x20DC00 12 = [192, 96, 0, 255, 255, 128, 0, 255, 1, 0, 0, 255] := by
  decide +kernel

/-- 95_test_vectors.md section 5, the clip at x = -1. The coverage buffer lies past the framebuffer. -/
theorem test_cblend_clips :
    bytesAfter .cblend (given { r0 with x := 0xFFFF, w := 3, h := 1, srcAddr := 0x400000, color := 0x4D1E140A }
        [(0x400000, [255, 128, 0]), (0, [100, 100, 100, 100, 100, 100, 100, 100, 100, 100, 100, 100])]) 0 12 =
      [54, 59, 64, 255, 100, 100, 100, 255, 100, 100, 100, 100] := by decide +kernel

/-! ## The image_format_converter unit (95_test_vectors.md section 6). The vectors put the source at 0x9000 with FB_ADDR = 0,
inside the framebuffer region; here it lies past it, at 0x400000, as 70_reset_and_hazards.md R155 asks (log 21). -/

/-- The start state of the table: two pixels (10, 20, 30, 40) at (5, 6) and (6, 6). -/
def blitState (src : List Byte) : State :=
  given { r0 with x := 5, y := 6, w := 2, h := 1, srcAddr := 0x400000 }
    [(30740, [10, 20, 30, 40, 10, 20, 30, 40]), (0x400000, src)]

theorem test_blit_rgb24 :
    bytesAfter .blitRgb24 (blitState [0x11, 0x22, 0x33, 0xAA, 0xBB, 0xCC]) 30740 8 = [17, 34, 51, 255, 170, 187, 204, 255] := by
  decide +kernel

theorem test_blit_bgr24 :
    bytesAfter .blitBgr24 (blitState [0x11, 0x22, 0x33, 0xAA, 0xBB, 0xCC]) 30740 8 = [51, 34, 17, 255, 204, 187, 170, 255] := by
  decide +kernel

theorem test_blit_rgba32 :
    bytesAfter .blitRgba32 (blitState [200, 100, 50, 128, 1, 2, 3, 255]) 30740 8 = [105, 60, 40, 255, 1, 2, 3, 255] := by
  decide +kernel

theorem test_blit_abgr32 :
    bytesAfter .blitAbgr32 (blitState [200, 100, 50, 128, 1, 2, 3, 255]) 30740 8 = [102, 43, 84, 255, 10, 19, 29, 255] := by
  decide +kernel

/-- The source address wraps: bytes at 0xFFFFFFFF, 0, 1. -/
theorem test_blit_source_wraps :
    bytesAfter .blitRgb24 (given { r0 with fbAddr := 0x1000, w := 1, h := 1, srcAddr := 0xFFFFFFFF }
      [(0xFFFFFFFF, [7, 8, 9])]) 0x1000 4 = [7, 8, 9, 255] := by decide +kernel

/-! ## The bicubic_image_resampler unit (95_test_vectors.md section 8) -/

theorem test_resize_one_to_four :
    bytesAfter .resize (given { r0 with srcAddr := 0x10, srcW := 1, srcH := 1, dstAddr := 0x20, dstW := 2, dstH := 2 }
      [(0x10, [100, 150, 200])]) 0x20 12 = [100, 150, 200, 56, 84, 112, 56, 84, 112, 31, 47, 63] := by decide +kernel

theorem test_resize_two_by_two_to_three_by_three :
    bytesAfter .resize (given { r0 with srcAddr := 0x10, srcW := 2, srcH := 2, dstAddr := 0x20, dstW := 3, dstH := 3 }
      [(0x10, [10, 20, 30, 40, 50, 60, 70, 80, 90, 100, 110, 120])]) 0x20 27 =
      [10, 20, 30, 33, 44, 55, 29, 35, 42, 55, 66, 77, 86, 98, 110, 61, 69, 77, 51, 58, 64, 72, 79, 86, 49, 54, 58] := by
  decide +kernel

/-! ## Undefined launches and resets -/

/-- A source inside the framebuffer is no defined launch; the counter of free values advances by both regions. -/
theorem test_overlap_is_no_defined_launch :
    launchDefined .cblend { r0 with w := 1, h := 1, srcAddr := 3686399 } = false ∧
    launchDefined .cblend { r0 with w := 1, h := 1, srcAddr := 3686400 } = true ∧
    launchDefined .cblend { r0 with w := 0, h := 1, srcAddr := 5 } = true := by decide

theorem test_resize_destination_bound :
    launchDefined .resize { r0 with dstW := 65535, dstH := 21845 } = true ∧
    launchDefined .resize { r0 with dstW := 65535, dstH := 21846 } = false := by decide

/-! ## The first step after reset, for each row of the opcode table -/

/-- And R152: PBLEND right after reset only sets the alpha byte of the pixel at address 0, whatever it held. -/
theorem test_first_step_runs_the_command :
    (after (step ((given r0 [(0, [10, 20, 30, 40])]).withFetchWord 32 1)) State.reset).mem =
      [(0, 10), (1, 20), (2, 30), (3, 255)] ∧
    ∀ i, step (State.reset.withFetchWord 32 (encode i).toNat) = exec i State.reset :=
  ⟨by decide +kernel, fun i => by cases i <;> rfl⟩

/-! ## Witnesses: for each statement with hypotheses, a concrete state and operands that meet all of them together -/

/-- A state after reset whose host is about to act. -/
def issuing (a : HostAction) : State := { State.reset with host := [a] }

/-- The state in which a one-pixel source at 0x400000 lies past the framebuffer at 0. -/
def onePixel : State := given { r0 with w := 1, h := 1, srcAddr := 0x400000 } [(0x400000, [9, 8, 7, 6])]

/-- A 4 by 1 source at 0x100 and a 2 by 1 destination at 0x200. -/
def halving : State :=
  given { r0 with srcAddr := 0x100, srcW := 4, srcH := 1, dstAddr := 0x200, dstW := 2, dstH := 1 } [(0x100, [1, 2, 3])]

theorem test_witness_DecodeOfEncode : Instr.wellFormed .pblend = true ∧ Instr.wellFormed .resize = true := by decide

theorem test_witness_StepRunsDecodedCommand :
    (issuing (cmdWrite 0x20#32)).host = cmdWrite 0x20#32 :: [] ∧ decode 0x20#32 = .ok .resize ∧
    decodeTableWord 32 0x01 = some .pblend ∧ decodeTableWord 8 0x05 = some .cblend := by decide

theorem test_witness_IllegalWordSetsIllOnly :
    (issuing (cmdWrite 0x100#32)).host = cmdWrite 0x100#32 :: [] ∧ ∀ i, decode 0x100#32 ≠ .ok i :=
  ⟨rfl, fun i => by cases i <;> decide⟩

/-- For `PositionWritesKeepSixteenSignedBits`, `SizeWritesKeepSixteenUnsignedBits`, `WordWritesKeepAllBits`,
`StatusIsWriteOneToClear` and `UnmappedWritesAreIgnored`: a write to each offset, of each boundary value. -/
theorem test_witness_register_writes :
    ∀ off ∈ [0x04#6, 0x08#6, 0x0C#6, 0x10#6, 0x14#6, 0x18#6, 0x1C#6, 0x20#6, 0x24#6, 0x28#6, 0x2C#6, 0x30#6, 0x34#6, 0x38#6, 0x3C#6],
    ∀ v ∈ [0#32, 1#32, 0x7FFF#32, 0x8000#32, 0xFFFF#32, 0x10000#32, 0xFFFFFFFF#32],
      ∃ s rest, State.host s = .regWrite off .word v :: rest :=
  fun off _ v _ => ⟨issuing (.regWrite off .word v), [], rfl⟩

theorem test_witness_HostReadsReturnTheRegisters :
    ∀ off ∈ [0x00#6, 0x34#6, 0x38#6, 0x3C#6],
      (issuing (.regRead off .word)).host = .regRead off .word :: [] ∧ off.toNat % 4 = 0 := by decide

theorem test_witness_OnlyUndefinedAccessesAreRefused :
    (AccessWidth.byte ≠ .word ∧ (issuing (.regWrite 0x00#6 .byte 1)).host = .regWrite 0x00#6 .byte 1 :: []) ∧
    ((0x3F#6).toNat % 4 ≠ 0 ∧ (issuing (.regRead 0x3F#6 .word)).host = .regRead 0x3F#6 .word :: []) ∧
    (∀ a rest, (issuing (.regRead 0x3C#6 .word)).host = a :: rest → a.wellFormed = true) ∧
    ∀ a rest, State.reset.host = a :: rest → a.wellFormed = true :=
  ⟨by decide, by decide, fun _ _ h => by cases h; decide, fun _ _ h => by cases h⟩

theorem test_witness_HostReachesTheSharedMemory :
    (issuing (.memWrite 0xFFFFFFFF 5)).host = .memWrite 0xFFFFFFFF 5 :: [] ∧ (0 : Addr) ≠ 0xFFFFFFFF ∧
    (issuing (.memRead 0)).host = .memRead 0 :: [] := by decide

theorem test_witness_BlockIsIdleBetweenTransactions : State.reset.host = [] := rfl

/-- The two reads, and an action that is none. -/
theorem test_witness_TransactionsRunInTheHostsOrder :
    (∃ t, (issuing (.memRead 7)).host = .memRead 7 :: [] ∧ step (issuing (.memRead 7)) = .next t) ∧
    (∃ t, (issuing (.regRead 0x3C#6 .word)).host = .regRead 0x3C#6 .word :: [] ∧
      step (issuing (.regRead 0x3C#6 .word)) = .next t) ∧
    ∃ t, (issuing .reset).host = .reset :: [] ∧ step (issuing .reset) = .next t ∧
      (∀ off width, HostAction.reset ≠ .regRead off width) ∧ ∀ addr, HostAction.reset ≠ .memRead addr :=
  ⟨⟨_, rfl, rfl⟩, ⟨_, rfl, rfl⟩, _, rfl, rfl, fun _ _ => nofun, fun _ => nofun⟩

theorem test_witness_InitialBytesAreArbitrary : Memory.written [(2, 1)] 3 = none := rfl

theorem test_witness_BlockResetKeepsMemory : (issuing .reset).host = .reset :: [] := rfl

theorem test_witness_ResetDuringCommandLeavesOldOrNewBytes :
    (issuing (.resetDuring 0x02#32)).host = .resetDuring 0x02#32 :: [] ∧ decode 0x02#32 = .ok .fill ∧
    inRegion (writtenRegion .fill r0).1 (writtenRegion .fill r0).2 3686399 = true ∧
    inRegion (writtenRegion .fill r0).1 (writtenRegion .fill r0).2 3686400 = false ∧
    (issuing (.resetDuring 0x100#32)).host = .resetDuring 0x100#32 :: [] ∧ ∀ i, decode 0x100#32 ≠ .ok i :=
  ⟨rfl, by decide, by decide, by decide, rfl, fun i => by cases i <;> decide⟩

theorem test_witness_StepKeepsMemoryCanonical :
    ∃ t, (issuing (cmdWrite 1)).Inv ∧ step (issuing (cmdWrite 1)) = .next t ∧ t.mem ≠ [] :=
  ⟨_, by decide, rfl, by decide +kernel⟩

theorem test_witness_EqualMemoriesAreEqualData :
    Memory.wf [(2, 1), (5, 0)] ∧ Memory.wf (Memory.write [(2, 1), (5, 3)] 5 0) ∧
    ∀ a, Memory.written [(2, 1), (5, 0)] a = Memory.written (Memory.write [(2, 1), (5, 3)] 5 0) a :=
  ⟨by decide, by decide, fun _ => rfl⟩

/-- The flag set by an illegal word, and cleared by each of the three ways. -/
theorem test_witness_IllFlagChangesOnlyAsStated :
    (∃ t, step (issuing (cmdWrite 0)) = .next t ∧ (issuing (cmdWrite 0)).regs.ill = false ∧ t.regs.ill = true) ∧
    ∀ a ∈ [HostAction.regWrite 0x04#6 .word 1, .reset, .resetDuring 0],
      ∃ t, step { given { r0 with ill := true } [] with host := [a] } = .next t ∧ t.regs.ill = false :=
  ⟨⟨_, rfl, rfl, rfl⟩, by
    intro a h
    simp only [List.mem_cons, List.not_mem_nil, or_false] at h
    obtain rfl | rfl | rfl := h
    · exact ⟨_, rfl, rfl⟩
    · exact ⟨_, rfl, rfl⟩
    · exact ⟨_, rfl, rfl⟩⟩

/-- `X` changed by a write, by a reset, and by a reset during a command. -/
theorem test_witness_OperandRegistersChangeOnlyByTheHost :
    ∀ a ∈ [HostAction.regWrite 0x10#6 .word 3, .reset, .resetDuring 0],
      ∃ s t, step s = .next t ∧ s.host = [a] ∧ RegName.x ≠ .status ∧ readReg t.regs .x ≠ readReg s.regs .x := by
  intro a h
  simp only [List.mem_cons, List.not_mem_nil, or_false] at h
  obtain rfl | rfl | rfl := h
  · exact ⟨issuing (.regWrite 0x10#6 .word 3), _, rfl, rfl, by decide, by decide⟩
  · exact ⟨{ given { r0 with x := 4 } [] with host := [.reset] }, _, rfl, rfl, by decide, by decide⟩
  · exact ⟨{ given { r0 with x := 4 } [] with host := [.resetDuring 0] }, _, rfl, rfl, by decide, by decide⟩

theorem test_witness_CommandsWriteOnlyTheirRegion :
    (∃ t, onePixel.LaunchOk .blitRgba32 ∧ exec .blitRgba32 onePixel = .next t ∧ Instr.blitRgba32 ≠ .resize ∧
      inRegion onePixel.regs.fbAddr 3686400 3686400 = false) ∧
    ∃ t, halving.LaunchOk .resize ∧ exec .resize halving = .next t ∧
      inRegion halving.regs.dstAddr (halving.regs.dstWidth * halving.regs.dstHeight * 3) 0x206 = false ∧
      inRegion halving.regs.dstAddr (halving.regs.dstWidth * halving.regs.dstHeight * 3) 0x205 = true :=
  ⟨⟨_, by decide, rfl, by decide, by decide⟩, _, by decide, rfl, by decide, by decide⟩

theorem test_witness_UndefinedLaunchLeavesTheRestAlone :
    let r := { r0 with w := 1, h := 1, srcAddr := 3686399 }
    launchDefined .cblend r = false ∧
    inRegion (sourceRegion .cblend r).1 (sourceRegion .cblend r).2 3686400 = false ∧
    inRegion (writtenRegion .cblend r).1 (writtenRegion .cblend r).2 3686400 = false := by decide

/-- PBLEND does not read `W`; two states that differ in it. -/
theorem test_witness_UnreadRegistersHaveNoInfluence :
    ∃ t t', State.reset.mem = (given { r0 with w := 7 } []).mem ∧
      State.reset.freeCount = (given { r0 with w := 7 } []).freeCount ∧
      (∀ n ∈ readBy .pblend, readReg State.reset.regs n = readReg (given { r0 with w := 7 } []).regs n) ∧
      State.reset.regs ≠ (given { r0 with w := 7 } []).regs ∧
      exec .pblend State.reset = .next t ∧ exec .pblend (given { r0 with w := 7 } []) = .next t' :=
  ⟨_, _, rfl, rfl, by decide, by decide, rfl, rfl⟩

theorem test_witness_BlendLaws : (10 : Byte) ≤ 20 ∧ (0 : Byte) ≤ 255 := by decide

/-- For `PutBlendPixel`, `PutRawPixel`, `CanvasPixelsAreApart` and `PblendResult`: the corners of the canvas, the pixels
just outside, and an address that is no byte of the pixel. -/
theorem test_witness_canvas :
    (∀ p ∈ [((0 : Int), (0 : Int)), (1279, 0), (0, 719), (1279, 719)], inCanvas p.1 p.2 = true) ∧
    (∀ p ∈ [((-1 : Int), (0 : Int)), (1280, 0), (0, -1), (0, 720)], inCanvas p.1 p.2 = false) ∧
    (∀ k < 4, (4 : Addr) ≠ addrPlus (pixelAddr 0 0 0) k) ∧
    r0.PixelByte 1279 719 3686399 ∧ ¬ r0.PixelByte r0.posX r0.posY 4 := by
  refine ⟨by decide, by decide, by decide, ⟨by decide, 3, by decide, by decide⟩, ?_⟩
  rintro ⟨-, k, hk, h⟩
  have : ∀ k < 4, (4 : Addr) ≠ addrPlus (pixelAddr 0 0 0) k := by decide
  exact this k hk h

/-- For `FillResult`, `FillbResult`, `CblendResult` and the four BLIT results: a launch that meets its obligation, a
canvas pixel of a one-pixel rectangle, as a point and as a column and a row, and an address no pixel of it has. -/
theorem test_witness_rectangle_results :
    (∀ i ∈ [Instr.fill, .fillb, .cblend, .blitRgb24, .blitRgba32, .blitBgr24, .blitAbgr32], onePixel.LaunchOk i) ∧
    inCanvas 0 0 = true ∧ onePixel.regs.InRect 0 0 ∧
    (0 < onePixel.regs.width ∧ 0 < onePixel.regs.height ∧
      inCanvas (onePixel.regs.posX + (0 : Nat)) (onePixel.regs.posY + (0 : Nat)) = true) ∧
    ∀ px py, onePixel.regs.InRect px py → ¬ onePixel.regs.PixelByte px py 4 := by
  refine ⟨by decide, by decide, ⟨by decide, by decide, by decide, by decide⟩, by decide, ?_⟩
  rintro px py ⟨h1, h2, h3, h4⟩ ⟨-, k, hk, h⟩
  have hx : onePixel.regs.posX = 0 := by decide
  have hy : onePixel.regs.posY = 0 := by decide
  have hw : onePixel.regs.width = 1 := by decide
  have hh : onePixel.regs.height = 1 := by decide
  obtain rfl : px = 0 := by omega
  obtain rfl : py = 0 := by omega
  have : ∀ k < 4, (4 : Addr) ≠ addrPlus (pixelAddr onePixel.regs.fbAddr 0 0) k := by decide
  exact this k hk h

/-- The first and the last row of a band of width 8 below row 0, and a band that has one pixel and not address 4. -/
theorem test_witness_ShadowResult :
    (inCanvas 7 0 = true ∧ RegFile.InShadowRow { r0 with w := 8 } 0 7 0) ∧
    (inCanvas 4 3 = true ∧ RegFile.InShadowRow { r0 with w := 8 } 3 4 3) ∧
    ∀ k px py, RegFile.InShadowRow { r0 with w := 1 } k px py → ¬ RegFile.PixelByte { r0 with w := 1 } px py 4 := by
  refine ⟨⟨by decide, by decide, by decide, by decide, by decide⟩, ⟨by decide, by decide, by decide, by decide, by decide⟩, ?_⟩
  rintro n px py ⟨h1, h2, h3, h4⟩ ⟨-, k, hk, h⟩
  have hx : RegFile.posX { r0 with w := 1 } = 0 := by decide
  have hy : RegFile.posY { r0 with w := 1 } = 0 := by decide
  have hw : RegFile.width { r0 with w := 1 } = 1 := by decide
  have hh : RegFile.height { r0 with w := 1 } = 0 := by decide
  obtain rfl : px = 0 := by omega
  obtain rfl : py = 0 := by omega
  have : ∀ k < 4, (4 : Addr) ≠ addrPlus (pixelAddr r0.fbAddr 0 0) k := by decide
  exact this k hk h

theorem test_witness_CblendIgnoresColorAlpha :
    ∃ t t', (0xFF000000 : Word).toNat % 2 ^ 24 = onePixel.regs.color.toNat % 2 ^ 24 ∧ exec .cblend onePixel = .next t ∧
      exec .cblend (onePixel.setRegs { onePixel.regs with color := 0xFF000000 }) = .next t' :=
  ⟨_, _, by decide, rfl, rfl⟩

theorem test_witness_EmptyRectanglesDrawNothing :
    (given { r0 with h := 9 } []).regs.w = 0 ∧ (given { r0 with w := 9 } []).regs.h = 0 := by decide

/-- Just below 0, 0, a fraction just below 255, and 255. -/
theorem test_witness_QEightClampsAndRoundsDown :
    (-1 / 1000 : Rat) < 0 ∧ (0 : Rat) ≤ 0 ∧ (0 : Rat) ≤ 254999 / 1000 ∧ (254999 / 1000 : Rat) < 255 ∧ (255 : Rat) ≤ 255 := by
  decide +kernel

theorem test_witness_CubicIsATapWeightSum : (0 : Rat) < 1 / 2 ∧ (1 / 2 : Rat) < 1 := by decide +kernel

/-- The three cases of the fraction, and the bounds of `n` and `D`. -/
theorem test_witness_CubicIntegerForm :
    (0 < 1 ∧ 65534 < 65535 ∧ 65535 ≤ 65535) ∧
    cubicNum (255#8).toNat (0#8).toNat (0#8).toNat (255#8).toNat 1 2 < 0 ∧
    255 * (6 * ((2 : Nat) : Int) ^ 3) ≤ cubicNum (0#8).toNat (255#8).toNat (255#8).toNat (0#8).toNat 1 2 ∧
    0 ≤ cubicNum (0#8).toNat (100#8).toNat (200#8).toNat (0#8).toNat 1 2 ∧
    cubicNum (0#8).toNat (100#8).toNat (200#8).toNat (0#8).toNat 1 2 < 255 * (6 * ((2 : Nat) : Int) ^ 3) := by decide

theorem test_witness_CubicOvershootIsBounded : (0 : Rat) ≤ 0 ∧ (0 : Rat) < 1 ∧ (0 : Rat) ≤ 1 / 2 ∧ (1 / 2 : Rat) < 1 := by
  decide +kernel

/-- A destination pixel, and taps outside on each side and inside, in a column and in the one row. -/
theorem test_witness_SourceCoordinatesStayInside :
    (65534 < 65535 ∧ 1 ≤ 1) ∧
    (0 < halving.regs.dstHeight ∧ 1 < halving.regs.dstWidth ∧ 1 ≤ halving.regs.srcHeight ∧ 1 ≤ halving.regs.srcWidth) ∧
    tapOutside (-1) (coordInt 0 4 2) 4 ∧ tapOutside 2 (coordInt 1 4 2) 4 ∧ tapOutside 1 (coordInt 0 1 1) 1 ∧
    ¬ tapOutside 1 (coordInt 1 4 2) 4 ∧ ¬ tapOutside 0 (coordInt 0 1 1) 1 := by
  refine ⟨by decide, by decide, ?_⟩
  unfold tapOutside
  decide

theorem test_witness_ResizeResult :
    halving.LaunchOk .resize ∧ 0 < halving.regs.dstHeight ∧ 1 < halving.regs.dstWidth ∧ 2 < 3 ∧
    inRegion halving.regs.dstAddr (halving.regs.dstWidth * halving.regs.dstHeight * 3) 0x206 = false := by decide

/-- By 2 across and 1 down, and at equal sizes. -/
theorem test_witness_ResizeByWholeFactorsPicksPixels :
    (halving.LaunchOk .resize ∧ halving.regs.srcWidth = 2 * halving.regs.dstWidth ∧
      halving.regs.srcHeight = 1 * halving.regs.dstHeight ∧ 0 < halving.regs.dstHeight ∧ 1 < halving.regs.dstWidth) ∧
    let s := given { r0 with srcW := 5, srcH := 7, dstAddr := 0x200, dstW := 5, dstH := 7 } []
    s.LaunchOk .resize ∧ s.regs.srcWidth = 1 * s.regs.dstWidth ∧ s.regs.srcHeight = 1 * s.regs.dstHeight := by decide

theorem test_witness_ResizeOfEmptyImages :
    (given { r0 with srcW := 5, srcH := 7, dstW := 5 } []).regs.dstH = 0 ∧
    let s := given { r0 with srcH := 7, dstW := 65535, dstH := 21845 } []
    s.regs.srcW = 0 ∧ s.regs.dstWidth * s.regs.dstHeight * 3 ≤ 2 ^ 32 := by decide

theorem test_witness_ResizeIsATwoPassResize :
    (0 : Int) < halving.regs.srcHeight ∧ 1 < halving.regs.dstWidth ∧ 0 < halving.regs.dstHeight := by decide

end Sys2Proof.Tests
end

section
/-! PROOFS. The ten commands said once: each is the memory its loops give, ended by `finishFrom`. What a command leaves
unchanged, which bytes it can write and which registers it depends on follow from that one equation. -/

namespace Sys2Proof.Machine

/-! ## One equation for the ten commands -/

/-- The memory the loops of a command leave (40_blend.md R85 to R89, 41_blit.md R101 to R104, 42_resize.md R114), before
the launch obligations are looked at. `exec_eq` ties it to `exec`. -/
def commandMem (i : Instr) (r : RegFile) (m : Memory) : Memory :=
  match i with
  | .pblend => putBlend r.fbAddr r.posX r.posY r.ink m
  | .fill => forRect r.width r.height (fun col row => putRaw r.fbAddr (r.posX + col) (r.posY + row) r.ink) m
  | .fillb => forRect r.width r.height (fun col row => putBlend r.fbAddr (r.posX + col) (r.posY + row) r.ink) m
  | .shadow => forRange Config.shadowRows (fun k => shadowRow r k) m
  | .cblend => coverLoop r m
  | .blitRgb24 => blitLoop .rgb24 r m
  | .blitRgba32 => blitLoop .rgba32 r m
  | .blitBgr24 => blitLoop .bgr24 r m
  | .blitAbgr32 => blitLoop .abgr32 r m
  | .resize => resizeLoop r m

/-- Only RESIZE writes elsewhere than the framebuffer (10_state.md R30). -/
theorem writtenRegion_of_ne_resize {i : Instr} (h : i ≠ .resize) (r : RegFile) :
    writtenRegion i r = (r.fbAddr, Config.fbBytes) := by
  cases i with
  | resize => exact absurd rfl h
  | _ => rfl

/-- A command that does not read `SRC_ADDR` has an empty source region. -/
theorem sourceRegion_length_of_not_read {i : Instr} (h : RegName.srcAddr ∉ readBy i) (r : RegFile) :
    (sourceRegion i r).2 = 0 := by
  cases i with
  | pblend | fill | fillb | shadow => rfl
  | cblend | blitRgb24 | blitRgba32 | blitBgr24 | blitAbgr32 | resize => exact absurd (by decide) h

/-- A command that reads no source has no launch obligation (70_reset_and_hazards.md R155). -/
theorem launchDefined_of_not_read {i : Instr} (h : RegName.srcAddr ∉ readBy i) (r : RegFile) :
    launchDefined i r = true := by
  have hres : i ≠ .resize := by rintro rfl; exact h (by decide)
  simp [launchDefined, sourceRegion_length_of_not_read h, writtenRegion_of_ne_resize hres, not_overlap_empty_left]

/-- The one equation: every command ends in a next state, which is `finishFrom` of what its loops leave. -/
theorem exec_eq (i : Instr) (s : State) : exec i s = .next (finishFrom i (commandMem i s.regs s.mem) s) := by
  cases i with
  | pblend | fill | fillb | shadow =>
    rw [finishFrom_defined _ (launchDefined_of_not_read (by decide) s.regs)]
    rfl
  | cblend | blitRgb24 | blitRgba32 | blitBgr24 | blitAbgr32 | resize => rfl

theorem exec_next {i : Instr} {s t : State} (h : exec i s = .next t) :
    t = finishFrom i (commandMem i s.regs s.mem) s := by
  rw [exec_eq] at h
  exact (Host.Outcome.next.inj h).symm

/-- With its launch obligations met, a command changes memory only. -/
theorem exec_defined {i : Instr} {s : State} (h : s.LaunchOk i) :
    exec i s = .next (s.setMem (commandMem i s.regs s.mem)) := by
  rw [exec_eq, finishFrom_defined _ h]

/-! ## What a command leaves unchanged -/

/-- The frame of every command: registers, transactions to come and returned values. -/
theorem exec_keeps {i : Instr} {s t : State} (h : exec i s = .next t) :
    t.regs = s.regs ∧ t.host = s.host ∧ t.reads = s.reads := by
  rw [exec_next h]
  exact ⟨finishFrom_regs .., finishFrom_host .., finishFrom_reads ..⟩

/-- The loops of a command write no byte outside its written region (20_memory.md R46, R49). -/
theorem read_commandMem_outside {i : Instr} {r : RegFile} {m : Memory} {a : Addr}
    (h : inRegion (writtenRegion i r).1 (writtenRegion i r).2 a = false) : (commandMem i r m).read a = m.read a := by
  cases i with
  | pblend => exact read_putBlend_outside_fb h
  | fill => exact forRect_none (obs := fun m => Memory.read m a) fun _ _ _ _ _ => read_putRaw_outside_fb h
  | fillb => exact forRect_none (obs := fun m => Memory.read m a) fun _ _ _ _ _ => read_putBlend_outside_fb h
  | shadow => exact forRange_none (obs := fun m => Memory.read m a) fun _ _ _ => read_shadowRow_outside h
  | cblend => exact read_coverLoop_outside h
  | blitRgb24 | blitRgba32 | blitBgr24 | blitAbgr32 => exact read_blitLoop_outside h
  | resize => exact read_resizeLoop_outside h

/-- The loops of a command keep the canonical form. -/
theorem wf_commandMem {m : Memory} (h : m.wf) (i : Instr) (r : RegFile) : (commandMem i r m).wf := by
  cases i with
  | pblend => exact wf_putBlend h ..
  | fill => exact forRect_keeps (P := Memory.wf) h fun _ _ _ _ _ ht => wf_putRaw ht ..
  | fillb => exact forRect_keeps (P := Memory.wf) h fun _ _ _ _ _ ht => wf_putBlend ht ..
  | shadow => exact forRange_keeps (P := Memory.wf) h fun _ _ _ ht => wf_shadowRow ht ..
  | cblend => exact wf_coverLoop h _
  | blitRgb24 | blitRgba32 | blitBgr24 | blitAbgr32 => exact wf_blitLoop h ..
  | resize => exact wf_resizeLoop h _

/-- A command keeps the canonical form, whatever its launch. -/
theorem inv_exec {i : Instr} {s t : State} (hs : s.Inv) (h : exec i s = .next t) : t.Inv := by
  rw [exec_next h]
  exact wf_finishFrom (wf_commandMem hs i s.regs) hs

/-! ## Which registers a command depends on -/

/-- The registers with only those named in `l` kept, the others as after reset: what a command that reads only `l`
(10_state.md R11, last column) sees of them. -/
def RegFile.mask (l : List RegName) (r : RegFile) : RegFile where
  ill := false
  fbAddr := if .fbAddr ∈ l then r.fbAddr else 0
  color := if .color ∈ l then r.color else 0
  x := if .x ∈ l then r.x else 0
  y := if .y ∈ l then r.y else 0
  w := if .w ∈ l then r.w else 0
  h := if .h ∈ l then r.h else 0
  srcAddr := if .srcAddr ∈ l then r.srcAddr else 0
  srcW := if .srcW ∈ l then r.srcW else 0
  srcH := if .srcH ∈ l then r.srcH else 0
  dstAddr := if .dstAddr ∈ l then r.dstAddr else 0
  dstW := if .dstW ∈ l then r.dstW else 0
  dstH := if .dstH ∈ l then r.dstH else 0

theorem zeroExtend_half_inj {v w : Half} (h : v.zeroExtend 32 = w.zeroExtend 32) : v = w := by
  bv_omega

theorem signExtend_half_inj {v w : Half} (h : v.signExtend 32 = w.signExtend 32) : v = w :=
  BitVec.eq_of_toInt_eq (by
    simpa only [BitVec.toInt_signExtend_of_le (show 16 ≤ 32 by decide)] using congrArg BitVec.toInt h)

/-- Registers that read alike at the names in `l` are alike in what `l` lets through. -/
theorem RegFile.mask_congr {l : List RegName} {r r' : RegFile} (h : ∀ n ∈ l, readReg r n = readReg r' n) :
    r.mask l = r'.mask l := by
  have keep {n : RegName} {k : Nat} {v v' : BitVec k} (e : n ∈ l → v = v') :
      (if n ∈ l then v else 0) = if n ∈ l then v' else 0 := ite_congr rfl e fun _ => rfl
  have position {n : RegName} {v v' : Half} (e : n ∈ l → v.signExtend 32 = v'.signExtend 32) :=
    keep fun hn => signExtend_half_inj (e hn)
  have size {n : RegName} {v v' : Half} (e : n ∈ l → v.zeroExtend 32 = v'.zeroExtend 32) :=
    keep fun hn => zeroExtend_half_inj (e hn)
  simp only [RegFile.mask, RegFile.mk.injEq, true_and]
  exact ⟨keep (h .fbAddr), keep (h .color), position (h .x), position (h .y), size (h .w), size (h .h),
    keep (h .srcAddr), size (h .srcW), size (h .srcH), keep (h .dstAddr), size (h .dstW), size (h .dstH)⟩

theorem commandMem_mask (i : Instr) (r : RegFile) (m : Memory) :
    commandMem i (r.mask (readBy i)) m = commandMem i r m := by
  cases i <;> rfl

theorem writtenRegion_mask (i : Instr) (r : RegFile) : writtenRegion i (r.mask (readBy i)) = writtenRegion i r := by
  cases i <;> rfl

theorem sourceRegion_mask {i : Instr} (h : RegName.srcAddr ∈ readBy i) (r : RegFile) :
    sourceRegion i (r.mask (readBy i)) = sourceRegion i r := by
  cases i with
  | pblend | fill | fillb | shadow => exact absurd h (by decide)
  | cblend | blitRgb24 | blitRgba32 | blitBgr24 | blitAbgr32 | resize => rfl

/-- The memory at the end depends on the registers through the two regions only, beside what the loops left. -/
theorem finishFrom_mem_congr {i : Instr} {m : Memory} {s s' : State} (hm : s.mem = s'.mem)
    (hf : s.freeCount = s'.freeCount) (hs : sourceRegion i s.regs = sourceRegion i s'.regs)
    (hw : writtenRegion i s.regs = writtenRegion i s'.regs) :
    (finishFrom i m s).mem = (finishFrom i m s').mem := by
  have hd : launchDefined i s.regs = launchDefined i s'.regs := by rw [launchDefined, launchDefined, hs, hw]
  by_cases h : launchDefined i s.regs = true
  · rw [finishFrom_defined m h, finishFrom_defined m (hd ▸ h)]
    rfl
  · rw [finishFrom, if_neg h, finishFrom, if_neg (hd ▸ h)]
    simp only [State.freeRegion_mem, State.freeRegion_freeCount, hm, hf, hs, hw]

/-- States that look alike through the mask of a command end with the same memory. -/
theorem exec_mem_congr {i : Instr} {s s' t t' : State} (hm : s.mem = s'.mem) (hf : s.freeCount = s'.freeCount)
    (hr : s.regs.mask (readBy i) = s'.regs.mask (readBy i)) (h : exec i s = .next t) (h' : exec i s' = .next t') :
    t.mem = t'.mem := by
  have hc : commandMem i s.regs s.mem = commandMem i s'.regs s'.mem := by
    rw [← commandMem_mask, hr, commandMem_mask, hm]
  rw [exec_next h, exec_next h', hc]
  by_cases hsrc : RegName.srcAddr ∈ readBy i
  case pos =>
    refine finishFrom_mem_congr hm hf ?_ ?_
    · rw [← sourceRegion_mask hsrc, hr, sourceRegion_mask hsrc]
    · rw [← writtenRegion_mask, hr, writtenRegion_mask]
  case neg =>
    rw [finishFrom_defined _ (launchDefined_of_not_read hsrc _), finishFrom_defined _ (launchDefined_of_not_read hsrc _)]
    rfl

/-- The red, green and blue of a colour word are its low 24 bits (10_state.md R13). -/
theorem unpackColor_rgb_congr {c d : Word} (h : c.toNat % 2 ^ 24 = d.toNat % 2 ^ 24) (a : Byte) :
    { unpackColor c with a := a } = { unpackColor d with a := a } := by
  simp only [unpackColor, Color.mk.injEq, and_true]
  refine ⟨?_, ?_, ?_⟩ <;> apply BitVec.eq_of_toNat_eq <;> simp only [BitVec.extractLsb'_toNat] <;> omega

/-- CBLEND's loops look at the red, green and blue of `COLOR` only (40_blend.md R89). -/
theorem coverLoop_color_congr {r : RegFile} {c : Word} (h : c.toNat % 2 ^ 24 = r.color.toNat % 2 ^ 24) (m : Memory) :
    coverLoop { r with color := c } m = coverLoop r m := by
  have hink : coverInk { r with color := c } = coverInk r := by
    funext col row m
    exact unpackColor_rgb_congr h _
  simp only [coverLoop, hink]
  rfl

end Sys2Proof.Machine
end

section
/-! PROOFS. The obligations about every command. -/

namespace Sys2Proof.Machine

/-- Settles O25: a command ends through `finishFrom`, which touches memory and the counter of free values only. -/
theorem commandsCompleteAndWriteNoRegister : Obligations.CommandsCompleteAndWriteNoRegister :=
  fun i s => ⟨_, exec_eq i s, exec_keeps (exec_eq i s)⟩

/-- Settles O28, from the frame of the loops. -/
theorem commandsWriteOnlyTheirRegion : Obligations.CommandsWriteOnlyTheirRegion := by
  intro i s t hok hexec
  have frame {a : Addr} (ha : inRegion (writtenRegion i s.regs).1 (writtenRegion i s.regs).2 a = false) :
      t.mem.read a = s.mem.read a := by
    obtain rfl := Host.Outcome.next.inj ((exec_defined hok).symm.trans hexec)
    exact read_commandMem_outside ha
  refine ⟨fun hne a ha => frame ?_, ?_⟩
  · rw [writtenRegion_of_ne_resize hne]
    exact ha
  · rintro rfl a ha
    exact frame ha

/-- Settles O32: the mask of the registers a command reads is all it sees of them. -/
theorem unreadRegistersHaveNoInfluence : Obligations.UnreadRegistersHaveNoInfluence :=
  fun _ _ _ _ _ hm hf hr => exec_mem_congr hm hf (RegFile.mask_congr hr)

/-- Settles O43: neither the loops nor the two regions of CBLEND depend on bits 31:24 of `COLOR`. -/
theorem cblendIgnoresColorAlpha : Obligations.CblendIgnoresColorAlpha := by
  intro s t t' c hc h h'
  rw [exec_next h, exec_next h']
  simp only [State.setRegs_regs, State.setRegs_mem, commandMem, coverLoop_color_congr hc]
  exact finishFrom_mem_congr rfl rfl rfl rfl

end Sys2Proof.Machine
end

section
/-! PROOFS. The host's actions said once: `Transaction s a t` lists everything an action can do, and `transaction_of_act`
says that an action does nothing else. The rules of the whole machine are read off its cases. -/

namespace Sys2Proof.Machine

/-! ## Running a command word -/

/-- The one way a word selects no command. -/
theorem decode_error {word : Word} (h : ∀ i, decode word ≠ .ok i) : decode word = .error (.illegalCommand word) := by
  rw [decode] at h ⊢
  split
  case isTrue hz =>
    rw [if_pos hz] at h
    split
    · next i hi => exact absurd (by rw [hi]) (h i)
    · rfl
  case isFalse => rfl

theorem runCommand_of_ok {word : Word} {i : Instr} (h : decode word = .ok i) (s : State) :
    runCommand word s = exec i s := by
  rw [runCommand, h]

theorem runCommand_of_illegal {word : Word} (h : ∀ i, decode word ≠ .ok i) (s : State) :
    runCommand word s = .next s.raiseIllegal := by
  rw [runCommand, decode_error h]

theorem resetDuring_of_ok {word : Word} {i : Instr} {s done : State} (h : decode word = .ok i)
    (hd : exec i s = .next done) : resetDuring word s = .next (abandon i done s) := by
  rw [resetDuring, h]
  simp only [hd]

theorem resetDuring_of_illegal {word : Word} (h : ∀ i, decode word ≠ .ok i) (s : State) :
    resetDuring word s = .next s.blockReset := by
  rw [resetDuring, decode_error h]

theorem inv_abandon {s : State} (h : s.Inv) (i : Instr) (done : State) : (abandon i done s).Inv := wf_mixRegion h ..

theorem decode_of_decodeTableWord {nbits w : Nat} {i : Instr} (h : decodeTableWord nbits w = some i) :
    decode (tableWord nbits w) = .ok i := by
  rw [decodeTableWord] at h
  split at h
  · split at h
    · next j hj => rw [hj, Option.some.inj h]
    · cases h
  · cases h

/-! ## Writes to the storage registers -/

/-- The registers after a write of `v` to the storage register `n` (10_state.md R12 to R18, R21); `CMD` stores nothing
(R19). `writeReg_store` ties it to `writeReg`. -/
def RegFile.store (r : RegFile) (n : RegName) (v : Word) : RegFile :=
  match n with
  | .cmd => r
  | .status => { r with ill := r.ill && !v.getLsbD 0 }
  | .fbAddr => { r with fbAddr := v }
  | .color => { r with color := v }
  | .x => { r with x := lowHalf v }
  | .y => { r with y := lowHalf v }
  | .w => { r with w := lowHalf v }
  | .h => { r with h := lowHalf v }
  | .srcAddr => { r with srcAddr := v }
  | .srcW => { r with srcW := lowHalf v }
  | .srcH => { r with srcH := lowHalf v }
  | .dstAddr => { r with dstAddr := v }
  | .dstW => { r with dstW := lowHalf v }
  | .dstH => { r with dstH := lowHalf v }

theorem writeReg_store {n : RegName} (h : n ≠ .cmd) (v : Word) (s : State) :
    writeReg n v s = .next (s.setRegs (s.regs.store n v)) := by
  cases n with
  | cmd => exact absurd rfl h
  | _ => rfl

/-- The flag after a write: only `STATUS` can clear it. -/
theorem store_ill (r : RegFile) (n : RegName) (v : Word) :
    (r.store n v).ill = (r.ill && !(n == .status && v.getLsbD 0)) := by
  cases n with
  | status => simp [RegFile.store]
  | _ => exact (Bool.and_true _).symm

/-- `STATUS` reads as the flag, zero-extended (10_state.md R23). -/
theorem statusWord_eq (r : RegFile) : statusWord r = (BitVec.ofBool r.ill).zeroExtend 32 := by
  rw [statusWord]
  cases r.ill <;> rfl

/-- A write to one register is not seen in another. -/
theorem readReg_store_of_ne {n k : RegName} (h : k ≠ n) (r : RegFile) (v : Word) :
    readReg (r.store n v) k = readReg r k := by
  cases n <;> cases k <;> simp [RegFile.store, readReg, statusWord_eq] at h ⊢

/-- The flag is seen in `STATUS` only. -/
theorem readReg_ill {n : RegName} (h : n ≠ .status) (r : RegFile) (b : Bool) :
    readReg { r with ill := b } n = readReg r n := by
  cases n with
  | status => exact absurd rfl h
  | _ => rfl

/-- A read at a register's offset gives that register. -/
@[simp] theorem hostReadValue_regOffset (r : RegFile) (n : RegName) : hostReadValue r (regOffset n) = readReg r n := by
  rw [hostReadValue, regAt_regOffset]

/-- The step of a write to a storage register. -/
theorem step_store {s : State} {n : RegName} {v : Word} {rest : List HostAction} (hn : n ≠ .cmd)
    (h : s.host = .regWrite (regOffset n) .word v :: rest) :
    step s = .next ((s.setHost rest).setRegs (s.regs.store n v)) := by
  rw [step_cons h, act_regWrite, writeReg_store hn]
  rfl

theorem hostWrite_of_unmapped {off : BitVec 6} (h : regAt off = none) (v : Word) (s : State) :
    hostWrite off v s = .next s := by
  rw [hostWrite, h]

/-! ## Everything an action can do -/

/-- What the action `a` makes of the state `s`: one constructor per way an action ends in a next state. -/
inductive Transaction (s : State) : HostAction → State → Prop where
  | command {word : Word} {i : Instr} {t : State} (hd : decode word = .ok i) (he : exec i s = .next t) :
    Transaction s (cmdWrite word) t
  | illegal {word : Word} (hd : ∀ i, decode word ≠ .ok i) : Transaction s (cmdWrite word) s.raiseIllegal
  | store {n : RegName} (hn : n ≠ .cmd) (v : Word) :
    Transaction s (.regWrite (regOffset n) .word v) (s.setRegs (s.regs.store n v))
  | ignored {off : BitVec 6} (hoff : regAt off = none) (v : Word) : Transaction s (.regWrite off .word v) s
  | regRead (off : BitVec 6) : Transaction s (.regRead off .word) (hostRead off s)
  | memWrite (a : Addr) (v : Byte) : Transaction s (.memWrite a v) (s.setMem (s.mem.write a v))
  | memRead (a : Addr) : Transaction s (.memRead a) (s.logRead (.byte (s.mem.read a)))
  | reset : Transaction s .reset s.blockReset
  | abandoned {word : Word} {i : Instr} {done : State} (hd : decode word = .ok i) (he : exec i s = .next done) :
    Transaction s (.resetDuring word) (abandon i done s)
  | abandonedIllegal {word : Word} (hd : ∀ i, decode word ≠ .ok i) :
    Transaction s (.resetDuring word) s.blockReset

/-- Every word is one of the two: a command's, or illegal. -/
theorem decode_ok_or_illegal (word : Word) : (∃ i, decode word = .ok i) ∨ ∀ i, decode word ≠ .ok i := by
  rw [← not_exists]
  exact Classical.em _

/-- A defined action ends in a next state, and it is a transaction. -/
theorem act_of_wellFormed {a : HostAction} (h : a.wellFormed = true) (s : State) :
    ∃ t, act a s = .next t ∧ Transaction s a t := by
  cases a with
  | regWrite off width v =>
    obtain ⟨rfl, -⟩ := accessDefined_iff.1 h
    have hact : act (.regWrite off .word v) s = hostWrite off v s := if_pos h
    rw [hact]
    cases hoff : regAt off with
    | none => exact ⟨s, hostWrite_of_unmapped hoff v s, .ignored hoff v⟩
    | some n =>
      rw [hostWrite, hoff, regAt_eq_some hoff]
      by_cases hn : n = .cmd
      · subst hn
        obtain ⟨i, hd⟩ | hd := decode_ok_or_illegal v
        · exact ⟨_, (runCommand_of_ok hd s).trans (exec_eq i s), .command hd (exec_eq i s)⟩
        · exact ⟨_, runCommand_of_illegal hd s, .illegal hd⟩
      · exact ⟨_, writeReg_store hn v s, .store hn v⟩
  | regRead off width =>
    obtain ⟨rfl, -⟩ := accessDefined_iff.1 h
    exact ⟨_, if_pos h, .regRead off⟩
  | memWrite a v => exact ⟨_, rfl, .memWrite a v⟩
  | memRead a => exact ⟨_, rfl, .memRead a⟩
  | reset => exact ⟨_, rfl, .reset⟩
  | resetDuring word =>
    obtain ⟨i, hd⟩ | hd := decode_ok_or_illegal word
    · exact ⟨_, resetDuring_of_ok hd (exec_eq i s), .abandoned hd (exec_eq i s)⟩
    · exact ⟨_, resetDuring_of_illegal hd s, .abandonedIllegal hd⟩

/-- An access to the window that is not an aligned 32-bit access is refused (10_state.md R25). -/
theorem act_of_undefined_access {off : BitVec 6} {width : AccessWidth} (h : width ≠ .word ∨ off.toNat % 4 ≠ 0)
    (v : Word) (s : State) :
    act (.regWrite off width v) s = .refused (.unpredictableHostAccess off width) ∧
    act (.regRead off width) s = .refused (.unpredictableHostAccess off width) := by
  have hdef : ¬ accessDefined off width = true := by
    rw [accessDefined_iff]
    tauto
  exact ⟨if_neg hdef, if_neg hdef⟩

/-- Only a defined action ends in a next state. -/
theorem wellFormed_of_act {a : HostAction} {s t : State} (h : act a s = .next t) : a.wellFormed = true := by
  cases a with
  | regWrite | regRead =>
    rw [act] at h
    split at h
    · assumption
    · cases h
  | memWrite | memRead | reset | resetDuring => rfl

/-- The inversion of an action: it ends in a next state by one of the cases of `Transaction`. -/
theorem transaction_of_act {a : HostAction} {s t : State} (h : act a s = .next t) : Transaction s a t := by
  obtain ⟨u, hu, htrans⟩ := act_of_wellFormed (wellFormed_of_act h) s
  rw [h] at hu
  exact Host.Outcome.next.inj hu ▸ htrans

/-- The inversion of a step: idle, or one transaction. -/
theorem step_cases {s t : State} (h : step s = .next t) :
    (s.host = [] ∧ t = s) ∨ ∃ a rest, s.host = a :: rest ∧ Transaction (s.setHost rest) a t := by
  cases hh : s.host with
  | nil =>
    rw [step, stepBody, hh] at h
    exact .inl ⟨rfl, (Host.Outcome.next.inj h).symm⟩
  | cons a rest =>
    rw [step_cons hh] at h
    exact .inr ⟨a, rest, rfl, transaction_of_act h⟩

/-! ## What every transaction keeps -/

theorem Transaction.host_eq {s t : State} {a : HostAction} (h : Transaction s a t) : t.host = s.host := by
  cases h with
  | command _ he => exact (exec_keeps he).2.1
  | _ => rfl

theorem Transaction.inv {s t : State} {a : HostAction} (h : Transaction s a t) (hs : s.Inv) : t.Inv := by
  cases h with
  | command _ he => exact inv_exec hs he
  | memWrite a v => exact Memory.wf_write hs a v
  | abandoned _ _ => exact inv_abandon hs _ _
  | _ => exact hs

/-- A transaction that is no read returns no value. -/
theorem Transaction.reads_eq {s t : State} {a : HostAction} (h : Transaction s a t)
    (hr : ∀ off width, a ≠ .regRead off width) (hm : ∀ addr, a ≠ .memRead addr) : t.reads = s.reads := by
  cases h with
  | command _ he => exact (exec_keeps he).2.2
  | regRead off => exact absurd rfl (hr off .word)
  | memRead a => exact absurd rfl (hm a)
  | _ => rfl

/-- A read returns one value and changes nothing else (10_state.md R23). -/
theorem Transaction.eq_logRead {s t : State} {a : HostAction} (h : Transaction s a t)
    (ha : (∃ off width, a = .regRead off width) ∨ ∃ addr, a = .memRead addr) : ∃ d, t = s.logRead d := by
  obtain ⟨off, width, rfl⟩ | ⟨addr, rfl⟩ := ha
  · cases h
    exact ⟨_, rfl⟩
  · cases h
    exact ⟨_, rfl⟩

/-- Only an illegal command word sets the flag (60_exceptions.md R131). -/
theorem Transaction.illegal_of_sets_ill {s t : State} {a : HostAction} (h : Transaction s a t)
    (h0 : s.regs.ill = false) (h1 : t.regs.ill = true) : ∃ word, a = cmdWrite word ∧ ∀ i, decode word ≠ .ok i := by
  cases h with
  | command _ he =>
    rw [(exec_keeps he).1, h0] at h1
    cases h1
  | illegal hd => exact ⟨_, rfl, hd⟩
  | store _ _ => simp [store_ill, h0] at h1
  | ignored | regRead | memWrite | memRead => exact absurd (h0.symm.trans h1) Bool.false_ne_true
  | reset | abandoned | abandonedIllegal => cases h1

/-- Only an acknowledgement or a reset clears it (60_exceptions.md R137). -/
theorem Transaction.ack_or_reset_of_clears_ill {s t : State} {a : HostAction} (h : Transaction s a t)
    (h1 : s.regs.ill = true) (h0 : t.regs.ill = false) :
    (∃ v : Word, a = .regWrite (regOffset .status) .word v ∧ v.getLsbD 0 = true) ∨ a = .reset ∨
      ∃ word, a = .resetDuring word := by
  cases h with
  | command _ he =>
    rw [(exec_keeps he).1, h1] at h0
    cases h0
  | illegal _ => cases h0
  | @store n _ v =>
    rw [State.setRegs_regs, store_ill, h1] at h0
    obtain ⟨rfl, hv⟩ : n = .status ∧ v.getLsbD 0 = true := by simpa using h0
    exact .inl ⟨v, rfl, hv⟩
  | ignored | regRead | memWrite | memRead => exact absurd (h0.symm.trans h1) Bool.false_ne_true
  | reset => exact .inr (.inl rfl)
  | abandoned | abandonedIllegal => exact .inr (.inr ⟨_, rfl⟩)

/-- Only a write to its own offset or a reset changes a register other than `STATUS` (10_state.md R11, R26). -/
theorem Transaction.write_or_reset_of_changes_reg {s t : State} {a : HostAction} {n : RegName} (h : Transaction s a t)
    (hn : n ≠ .status) (hne : readReg t.regs n ≠ readReg s.regs n) :
    (∃ v, a = .regWrite (regOffset n) .word v) ∨ a = .reset ∨ ∃ word, a = .resetDuring word := by
  cases h with
  | command _ he => exact absurd (by rw [(exec_keeps he).1]) hne
  | illegal _ => exact absurd (readReg_ill hn s.regs true) hne
  | @store k _ v =>
    by_cases hk : n = k
    · exact .inl ⟨v, by rw [hk]⟩
    · exact absurd (readReg_store_of_ne hk s.regs v) hne
  | ignored | regRead | memWrite | memRead => exact absurd rfl hne
  | reset => exact .inr (.inl rfl)
  | abandoned | abandonedIllegal => exact .inr (.inr ⟨_, rfl⟩)

end Sys2Proof.Machine
end

section
/-! PROOFS. The obligations about the steps and the register window. -/

namespace Sys2Proof.Machine

/-! ## The bits a half-word register keeps -/

theorem toNat_lowHalf (v : Word) : (lowHalf v).toNat = v.toNat % 65536 := by
  simp [lowHalf]

theorem msb_lowHalf (v : Word) : (lowHalf v).msb = v.getLsbD 15 := by
  simp [lowHalf, BitVec.msb_eq_getLsbD_last]

/-- The stored bits as a two's complement integer (10_state.md R12). -/
theorem toInt_lowHalf (v : Word) :
    (lowHalf v).toInt = ((v.toNat % 65536 : Nat) : Int) - (if v.getLsbD 15 then 65536 else 0) := by
  rw [BitVec.toInt_eq_msb_cond, msb_lowHalf, toNat_lowHalf]
  split <;> simp

theorem toInt_half_range (x : Half) : -32768 ≤ x.toInt ∧ x.toInt ≤ 32767 :=
  ⟨BitVec.le_toInt x, Int.lt_add_one_iff.1 BitVec.toInt_lt⟩

/-- A sign-extended register reads its bits in the low half. -/
theorem lowHalf_signExtend (x : Half) : (x.signExtend 32).extractLsb' 0 16 = x := by
  ext b hb
  rw [BitVec.getElem_extractLsb', Nat.zero_add, BitVec.getLsbD_signExtend, if_pos hb,
    decide_eq_true (show b < 32 by omega), Bool.true_and, BitVec.getLsbD_eq_getElem]

/-- A sign-extended register reads its sign in every bit above (10_state.md R12). -/
theorem getLsbD_signExtend_high (x : Half) {b : Nat} (h : 16 ≤ b) (h' : b < 32) :
    (x.signExtend 32).getLsbD b = x.msb := by
  rw [BitVec.getLsbD_signExtend, if_neg (by omega), decide_eq_true h', Bool.true_and]

theorem toNat_zeroExtend_half (x : Half) : (x.zeroExtend 32).toNat = x.toNat := by
  simp only [BitVec.zeroExtend, BitVec.toNat_setWidth]
  omega

/-- Settles O8: the step is a store, and the four facts about the stored half-word give the rest. -/
theorem positionWritesKeepSixteenSignedBits : Obligations.PositionWritesKeepSixteenSignedBits := by
  intro p hp s rest v h
  have low : ((lowHalf v).signExtend 32).extractLsb' 0 16 = lowHalf v := lowHalf_signExtend _
  have high (b : Nat) (hb : 16 ≤ b) (hb' : b < 32) : ((lowHalf v).signExtend 32).getLsbD b = v.getLsbD 15 :=
    (getLsbD_signExtend_high _ hb hb').trans (msb_lowHalf v)
  obtain ⟨hlo, hhi⟩ := toInt_half_range (lowHalf v)
  simp only [List.mem_cons, List.not_mem_nil, or_false] at hp
  obtain rfl | rfl := hp
  · exact ⟨_, step_store (n := .x) (by decide) h, rfl, rfl, toInt_lowHalf v, hlo, hhi, low, high⟩
  · exact ⟨_, step_store (n := .y) (by decide) h, rfl, rfl, toInt_lowHalf v, hlo, hhi, low, high⟩

/-- Settles O9: as for O8, with the unsigned value of the stored half-word. -/
theorem sizeWritesKeepSixteenUnsignedBits : Obligations.SizeWritesKeepSixteenUnsignedBits := by
  intro p hp s rest v h
  have stored := toNat_lowHalf v
  have readBack := (toNat_zeroExtend_half (lowHalf v)).trans stored
  simp only [List.mem_cons, List.not_mem_nil, or_false] at hp
  obtain rfl | rfl | rfl | rfl | rfl | rfl := hp
  · exact ⟨_, step_store (n := .w) (by decide) h, rfl, stored, readBack⟩
  · exact ⟨_, step_store (n := .h) (by decide) h, rfl, stored, readBack⟩
  · exact ⟨_, step_store (n := .srcW) (by decide) h, rfl, stored, readBack⟩
  · exact ⟨_, step_store (n := .srcH) (by decide) h, rfl, stored, readBack⟩
  · exact ⟨_, step_store (n := .dstW) (by decide) h, rfl, stored, readBack⟩
  · exact ⟨_, step_store (n := .dstH) (by decide) h, rfl, stored, readBack⟩

/-- Settles O10: the four stores keep the whole word. -/
theorem wordWritesKeepAllBits : Obligations.WordWritesKeepAllBits := by
  intro p hp s rest v h
  simp only [List.mem_cons, List.not_mem_nil, or_false] at hp
  obtain rfl | rfl | rfl | rfl := hp
  · exact ⟨_, step_store (n := .fbAddr) (by decide) h, rfl, rfl, rfl⟩
  · exact ⟨_, step_store (n := .color) (by decide) h, rfl, rfl, rfl⟩
  · exact ⟨_, step_store (n := .srcAddr) (by decide) h, rfl, rfl, rfl⟩
  · exact ⟨_, step_store (n := .dstAddr) (by decide) h, rfl, rfl, rfl⟩

/-- Settles O11: the store to `STATUS` keeps the flag unless bit 0 is 1. -/
theorem statusIsWriteOneToClear : Obligations.StatusIsWriteOneToClear := by
  intro s rest v h
  have hbit : v.getLsbD 0 = decide (v.toNat % 2 = 1) := by
    simp [BitVec.getLsbD, Nat.testBit_zero]
  have hill : (s.regs.ill && !v.getLsbD 0) = if v.toNat % 2 = 1 then false else s.regs.ill := by
    rw [hbit]
    split <;> simp [*]
  rw [step_store (n := .status) (by decide) h, RegFile.store, hill]

/-- Settles O6: a `CMD` write is `runCommand` of its word. -/
theorem stepRunsDecodedCommand : Obligations.StepRunsDecodedCommand := by
  refine ⟨fun s rest word i h hd => ?_, fun s nbits w i h => ?_⟩
  · rw [step_cons h, act_cmdWrite, runCommand_of_ok hd]
  · have hhost : (s.withFetchWord nbits w).host = cmdWrite (tableWord nbits w) :: s.host := rfl
    rw [step_cons hhost, act_cmdWrite, runCommand_of_ok (decode_of_decodeTableWord h)]
    rfl

/-- Settles O12: the step logs the value read, and each offset is that of its register. -/
theorem hostReadsReturnTheRegisters : Obligations.HostReadsReturnTheRegisters := by
  refine ⟨fun s rest off h halign => ?_, fun r => ?_⟩
  · rw [step_cons h, act, if_pos (accessDefined_iff.2 ⟨rfl, halign⟩)]
    rfl
  · have reg := hostReadValue_regOffset r
    exact ⟨reg .cmd, reg .status, reg .fbAddr, reg .color, reg .x, reg .y, reg .w, reg .h, reg .srcAddr, reg .srcW,
      reg .srcH, reg .dstAddr, reg .dstW, reg .dstH, rfl, rfl⟩

/-- Settles O13: no register is at 0x38 or 0x3C. -/
theorem unmappedWritesAreIgnored : Obligations.UnmappedWritesAreIgnored := by
  intro s rest off v hoff h
  have hdef : accessDefined off .word = true := by obtain rfl | rfl := hoff <;> decide
  have hnone : regAt off = none := by obtain rfl | rfl := hoff <;> rfl
  rw [step_cons h, act, if_pos hdef, hostWrite_of_unmapped hnone]

/-- Settles O14: an undefined access is refused, and a defined action ends in a next state. -/
theorem onlyUndefinedAccessesAreRefused : Obligations.OnlyUndefinedAccessesAreRefused := by
  refine ⟨fun s rest off width v hundef hhost => ?_, fun s hwf => ?_⟩
  · obtain ⟨hwrite, hread⟩ := act_of_undefined_access hundef v (s.setHost rest)
    obtain h | h := hhost
    · rw [step_cons h, hwrite]
    · rw [step_cons h, hread]
  · cases hh : s.host with
    | nil => exact ⟨s, by rw [step, stepBody, hh]⟩
    | cons a rest =>
      obtain ⟨t, ht, -⟩ := act_of_wellFormed (hwf a rest hh) (s.setHost rest)
      exact ⟨t, (step_cons hh).trans ht⟩

/-- Settles O15: the one law of memory, and a logged read. -/
theorem hostReachesTheSharedMemory : Obligations.HostReachesTheSharedMemory := by
  refine ⟨fun s rest a v h => ⟨_, step_cons h, rfl, ?_, fun b hb => ?_⟩, fun s rest a h => step_cons h⟩
  · exact (Memory.read_write ..).trans (if_pos rfl)
  · exact (Memory.read_write ..).trans (if_neg hb)

/-- Settles O16: with an empty list the step is the identity. -/
theorem blockIsIdleBetweenTransactions : Obligations.BlockIsIdleBetweenTransactions := by
  intro s h
  rw [step, stepBody, h]

/-- Settles O17, from what every transaction keeps. -/
theorem transactionsRunInTheHostsOrder : Obligations.TransactionsRunInTheHostsOrder := by
  intro s t a rest hhost hstep
  rw [step_cons hhost] at hstep
  have htrans := transaction_of_act hstep
  refine ⟨htrans.host_eq, fun ha => ?_, htrans.reads_eq⟩
  obtain ⟨d, rfl⟩ := htrans.eq_logRead ha
  exact ⟨d, rfl, rfl, rfl⟩

/-- Settles O20: the action is `blockReset`. -/
theorem blockResetKeepsMemory : Obligations.BlockResetKeepsMemory :=
  fun _ _ h => step_cons h

end Sys2Proof.Machine
end

section
/-! PROOFS. The obligations about the invariant, the flag and the registers over every step, and about the reset state. -/

namespace Sys2Proof.Machine

/-- Settles O23: every transaction keeps the canonical form. -/
theorem stepKeepsMemoryCanonical : Obligations.StepKeepsMemoryCanonical := by
  intro s t hs hstep
  obtain ⟨-, rfl⟩ | ⟨a, rest, -, htrans⟩ := step_cases hstep
  · exact hs
  · exact htrans.inv hs

/-- Settles O26, by the two directions over one transaction. -/
theorem illFlagChangesOnlyAsStated : Obligations.IllFlagChangesOnlyAsStated := by
  intro s t hstep
  obtain ⟨-, rfl⟩ | ⟨a, rest, hhost, htrans⟩ := step_cases hstep
  · exact ⟨fun h0 h1 => absurd (h0.symm.trans h1) Bool.false_ne_true,
      fun h1 h0 => absurd (h0.symm.trans h1) Bool.false_ne_true⟩
  refine ⟨fun h0 h1 => ?_, fun h1 h0 => ?_⟩
  · obtain ⟨word, rfl, hd⟩ := htrans.illegal_of_sets_ill h0 h1
    exact ⟨word, rest, hhost, hd⟩
  · obtain ⟨v, rfl, hv⟩ | rfl | ⟨word, rfl⟩ := htrans.ack_or_reset_of_clears_ill h1 h0
    · exact .inl ⟨v, rest, hhost, hv⟩
    · exact .inr (.inl ⟨rest, hhost⟩)
    · exact .inr (.inr ⟨word, rest, hhost⟩)

/-- Settles O27, from what a transaction does to one register. -/
theorem operandRegistersChangeOnlyByTheHost : Obligations.OperandRegistersChangeOnlyByTheHost := by
  intro s t n hstep hn hne
  obtain ⟨-, rfl⟩ | ⟨a, rest, hhost, htrans⟩ := step_cases hstep
  · exact absurd rfl hne
  · obtain ⟨v, rfl⟩ | rfl | ⟨word, rfl⟩ := htrans.write_or_reset_of_changes_reg hn hne
    · exact .inl ⟨v, rest, hhost⟩
    · exact .inr (.inl ⟨rest, hhost⟩)
    · exact .inr (.inr ⟨word, rest, hhost⟩)

/-- Settles O22: the empty memory is canonical. -/
theorem resetKeepsMemoryCanonical : Obligations.ResetKeepsMemoryCanonical := Memory.wf_nil

/-- Settles O18: every register is 0 at reset, and an offset reads its register or 0. -/
theorem registersAfterReset : Obligations.RegistersAfterReset := by
  have hreg (n : RegName) : readReg State.reset.regs n = 0 := by cases n <;> rfl
  refine ⟨rfl, hreg, fun off => ?_⟩
  rw [hostReadValue]
  split
  · exact hreg _
  · rfl

/-- Settles O19, from the laws of `written`. -/
theorem initialBytesAreArbitrary : Obligations.InitialBytesAreArbitrary :=
  ⟨fun _ => rfl, fun _ _ => Memory.read_of_not_written, Memory.written_write⟩

end Sys2Proof.Machine
end

section
/-! PROOFS. Two data facts: canonical memories are determined by their written bytes, and colours by their packed word. -/

namespace Sys2Proof.Machine

/-! ## Canonical memories -/

theorem mem_of_lookupCell {m : List Host.Cell} {k : Nat} {v : Byte} (h : lookupCell m k = some v) : (k, v) ∈ m := by
  induction m with
  | nil => cases h
  | cons c m ih =>
    rw [lookupCell] at h
    split at h
    · next hk =>
      rw [← hk, ← Option.some.inj h]
      exact List.mem_cons_self
    · exact List.mem_cons_of_mem c (ih h)

theorem lookupCell_of_mem {m : List Host.Cell} (hm : m.Pairwise (fun c d => c.1 < d.1)) {c : Host.Cell} (h : c ∈ m) :
    lookupCell m c.1 = some c.2 := by
  induction m with
  | nil => cases h
  | cons d m ih =>
    obtain ⟨hd, hm⟩ := List.pairwise_cons.1 hm
    rw [lookupCell]
    obtain rfl | h := List.mem_cons.1 h
    · exact if_pos rfl
    · rw [if_neg (Nat.ne_of_lt (hd c h)), ih hm h]

/-- The entries of a canonical memory are its written bytes. -/
theorem Memory.mem_iff_written {m : Memory} (h : m.wf) {c : Host.Cell} :
    c ∈ m ↔ c.1 < 2 ^ 32 ∧ m.written (BitVec.ofNat 32 c.1) = some c.2 := by
  obtain ⟨hrising, hlt⟩ := h
  constructor
  · intro hc
    rw [Memory.written, BitVec.toNat_ofNat, Nat.mod_eq_of_lt (hlt c hc)]
    exact ⟨hlt c hc, lookupCell_of_mem hrising hc⟩
  · rintro ⟨hc, hw⟩
    rw [Memory.written, BitVec.toNat_ofNat, Nat.mod_eq_of_lt hc] at hw
    exact mem_of_lookupCell hw

/-- Settles O24: the same entries in the same strict order are the same list. -/
theorem equalMemoriesAreEqualData : Obligations.EqualMemoriesAreEqualData := by
  intro m m' hm hm' h
  have nodup {l : Memory} (hl : l.wf) : l.Nodup := hl.1.imp fun hlt e => Nat.ne_of_lt hlt (congrArg Prod.fst e)
  have hperm : m.Perm m' := (List.perm_ext_iff_of_nodup (nodup hm) (nodup hm')).2 fun c => by
    rw [Memory.mem_iff_written hm, Memory.mem_iff_written hm', h]
  exact hperm.eq_of_pairwise (fun _ _ _ _ hlt hgt => absurd hlt (Nat.lt_asymm hgt)) hm.1 hm'.1

/-! ## Packed colours -/

/-- Byte `k` of a packed number below 2^32. -/
theorem extract_ofNat_eq {n k : Nat} {b : Byte} (h : n / 2 ^ k % 256 = b.toNat) (hn : n < 2 ^ 32) :
    (BitVec.ofNat 32 n).extractLsb' k 8 = b := by
  apply BitVec.eq_of_toNat_eq
  rw [BitVec.extractLsb'_toNat, BitVec.toNat_ofNat, Nat.mod_eq_of_lt hn, Nat.shiftRight_eq_div_pow, ← h]

/-- Settles O59: the four fields do not reach into each other, since each channel is below 256. -/
theorem packedColorsUnpack : Obligations.PackedColorsUnpack := by
  rintro ⟨r, g, b, a⟩
  have hr := r.isLt
  have hg := g.isLt
  have hb := b.isLt
  have ha := a.isLt
  simp only [unpackColor, packColor, Color.mk.injEq]
  refine ⟨?_, ?_, ?_, ?_⟩ <;> apply extract_ofNat_eq <;> omega

end Sys2Proof.Machine
end

section
/-! PROOFS. The obligation about the canvas and the pixel addresses. -/

namespace Sys2Proof.Machine

theorem addrPlus_toNat (a : Addr) (n : Nat) : (addrPlus a n).toNat = (a.toNat + n) % 2 ^ 32 := by
  simp only [addrPlus, BitVec.toNat_add, BitVec.toNat_ofNat, Nat.add_mod_mod]

/-- On the canvas no coordinate is negative, so the offset is the formula of 40_blend.md R81 over the integers. -/
theorem pixelOffset_cast {x y : Int} (h : inCanvas x y = true) : (pixelOffset x y : Int) = (y * 1280 + x) * 4 := by
  obtain ⟨hx, -, hy, -⟩ := inCanvas_iff.1 h
  simp only [pixelOffset, canvasW_eq, fbBpp_eq]
  omega

theorem pixelAddr_toNat {x y : Int} (fb : Addr) (h : inCanvas x y = true) :
    ((pixelAddr fb x y).toNat : Int) = (fb.toNat + (y * 1280 + x) * 4) % 2 ^ 32 := by
  rw [pixelAddr, addrPlus_toNat, ← pixelOffset_cast h]
  norm_cast

/-- Settles O37, from the offset over the integers and from `pixelByte_inj`. -/
theorem canvasPixelsAreApart : Obligations.CanvasPixelsAreApart := by
  refine ⟨fun x y => inCanvas_iff, fun fb x y h => ⟨pixelAddr_toNat fb h, ?_⟩, ?_⟩
  · rw [← pixelOffset_cast h]
    exact_mod_cast pixelOffset_le h
  · rintro r x y x' y' a ⟨hin, k, hk, rfl⟩ ⟨hin', k', hk', haddr⟩
    obtain ⟨hx, hy, -⟩ := pixelByte_inj hin hin' hk hk' haddr
    exact ⟨hx, hy⟩

end Sys2Proof.Machine
end

section
/-! PROOFS. The obligations about command words: `decode` and `encode` are inverse to each other, so that the words of
the ten commands are the legal ones. -/

namespace Sys2Proof.Machine

/-! ## Decoder and encoder -/

/-- The opcode map of 30_encoding.md R62 is inverse to the decoder of R61. -/
theorem decode_encode (i : Instr) : decode (encode i) = .ok i := by
  cases i <;> rfl

/-- The case split of 30_encoding.md R61 is on the opcodes of R62. -/
theorem eq_encodeOp_of_decodeOp {op : Byte} {i : Instr} (h : decodeOp op = some i) : op = encodeOp i := by
  rw [decodeOp] at h
  split at h
  case h_11 => cases h
  all_goals
    rename_i hop
    obtain rfl := Option.some.inj h
    exact BitVec.eq_of_toNat_eq hop

/-- A word is its two fields (30_encoding.md R60). -/
theorem zeroField_append_opField (w : Word) : zeroField w ++ opField w = w := by
  have happend : zeroField w ++ opField w = w.extractLsb' 0 32 :=
    BitVec.extractLsb'_append_extractLsb'_eq_extractLsb' rfl
  exact happend.trans BitVec.extractLsb'_eq_self

/-- A word selects a command exactly when it is that command's word. -/
theorem decode_eq_ok_iff {w : Word} {i : Instr} : decode w = .ok i ↔ w = encode i := by
  refine ⟨fun h => ?_, fun h => h ▸ decode_encode i⟩
  rw [decode] at h
  split at h
  case isFalse => cases h
  case isTrue hz =>
    split at h
    case h_2 => cases h
    case h_1 j hj =>
      obtain rfl := Except.ok.inj h
      calc w = zeroField w ++ opField w := (zeroField_append_opField w).symm
        _ = encode j := by rw [hz, eq_encodeOp_of_decodeOp hj]; rfl

/-- A word is rejected exactly when it is no command's. -/
theorem decode_eq_error_iff {w : Word} : decode w = .error (.illegalCommand w) ↔ ∀ i, w ≠ encode i := by
  refine ⟨fun h i hi => ?_, fun h => decode_error fun i hd => h i (decode_eq_ok_iff.1 hd)⟩
  rw [decode_eq_ok_iff.2 hi] at h
  cases h

/-- The command words as numbers (30_encoding.md R62). -/
theorem exists_eq_encode_iff {w : Word} :
    (∃ i, w = encode i) ↔ w.toNat ∈ [0x01, 0x02, 0x03, 0x04, 0x05, 0x10, 0x11, 0x12, 0x13, 0x20] := by
  constructor
  · rintro ⟨i, rfl⟩
    cases i <;> decide
  · intro h
    simp only [List.mem_cons, List.not_mem_nil, or_false] at h
    obtain h | h | h | h | h | h | h | h | h | h := h
    · exact ⟨.pblend, BitVec.eq_of_toNat_eq h⟩
    · exact ⟨.fill, BitVec.eq_of_toNat_eq h⟩
    · exact ⟨.fillb, BitVec.eq_of_toNat_eq h⟩
    · exact ⟨.shadow, BitVec.eq_of_toNat_eq h⟩
    · exact ⟨.cblend, BitVec.eq_of_toNat_eq h⟩
    · exact ⟨.blitRgb24, BitVec.eq_of_toNat_eq h⟩
    · exact ⟨.blitRgba32, BitVec.eq_of_toNat_eq h⟩
    · exact ⟨.blitBgr24, BitVec.eq_of_toNat_eq h⟩
    · exact ⟨.blitAbgr32, BitVec.eq_of_toNat_eq h⟩
    · exact ⟨.resize, BitVec.eq_of_toNat_eq h⟩

/-- Settles O2: a decoded word is its command's, and a rejected one no command's. -/
theorem everyWordIsOneCommandOrIllegal : Obligations.EveryWordIsOneCommandOrIllegal := by
  intro w
  obtain ⟨i, hd⟩ | hd := decode_ok_or_illegal w
  · refine .inl ⟨i, hd, decode_eq_ok_iff.1 hd, fun j hj => ?_⟩
    exact Except.ok.inj ((decode_eq_ok_iff.2 hj).symm.trans hd)
  · have herr := decode_error hd
    exact .inr ⟨herr, decode_eq_error_iff.1 herr⟩

/-- Settles O4: every opcode is below 256, so a command's word has no bit of 31:8 and is its own low byte. -/
theorem illegalWords : Obligations.IllegalWords := by
  intro w
  rw [decode_eq_error_iff, ← not_exists, exists_eq_encode_iff]
  simp only [List.mem_cons, List.not_mem_nil, or_false]
  omega

/-- Settles O1: each word is the encoded command. -/
theorem commandWordsDecode : Obligations.CommandWordsDecode :=
  ⟨decode_encode .pblend, decode_encode .fill, decode_encode .fillb, decode_encode .shadow, decode_encode .cblend,
    decode_encode .blitRgb24, decode_encode .blitRgba32, decode_encode .blitBgr24, decode_encode .blitAbgr32,
    decode_encode .resize⟩

/-- Settles O3: well-formedness excludes no command. -/
theorem decodeOfEncode : Obligations.DecodeOfEncode := fun i _ => decode_encode i

/-! ## The format field -/

/-- The opcode of a BLIT command is built from its format (30_encoding.md R60). -/
theorem encode_blitOf (fmt : PixelFormat) : encode (blitOf fmt) = 0#24 ++ blitOp fmt := by
  cases fmt <;> rfl

/-- Bit 0 of `FMT` chooses between 3 and 4 bytes per pixel (30_encoding.md R64). -/
theorem bpp_eq_fmtCode (fmt : PixelFormat) : bpp fmt = if (fmtCode fmt).getLsbD 0 then 4 else 3 := by
  cases fmt <;> rfl

/-- Settles O5, from the word of a BLIT command and from what bit 0 of its format chooses. -/
theorem blitWordsCarryTheFormat : Obligations.BlitWordsCarryTheFormat := by
  refine ⟨rfl, rfl, rfl, rfl, fun fmt => ⟨encode_blitOf fmt, ?_⟩⟩
  rw [bpp_eq_fmtCode]
  cases (fmtCode fmt).getLsbD 0 <;> decide

end Sys2Proof.Machine
end

section
/-! PROOFS. The obligation about the pseudo-instructions: a run of register writes stores them one after the other, and
a `CMD` write after them is its command on the registers they leave. -/

namespace Sys2Proof.Machine

/-- A half-word register keeps of a written number what 16 bits hold of it (10_state.md R12, R14). -/
theorem lowHalf_valueWord (v : Int) : lowHalf (valueWord v) = BitVec.ofInt 16 v := by
  apply BitVec.eq_of_toNat_eq
  rw [toNat_lowHalf, valueWord, BitVec.toNat_ofInt, BitVec.toNat_ofInt]
  omega

/-- The registers after the line `wr n, v`, with the number cut to the bits of the register (30_encoding.md R68,
log 20). `store_valueWord` ties it to the store. -/
def RegFile.assign (r : RegFile) (n : RegName) (v : Int) : RegFile :=
  match n with
  | .cmd => r
  | .status => if (valueWord v).getLsbD 0 then { r with ill := false } else r
  | .fbAddr => { r with fbAddr := BitVec.ofInt 32 v }
  | .color => { r with color := BitVec.ofInt 32 v }
  | .x => { r with x := BitVec.ofInt 16 v }
  | .y => { r with y := BitVec.ofInt 16 v }
  | .w => { r with w := BitVec.ofInt 16 v }
  | .h => { r with h := BitVec.ofInt 16 v }
  | .srcAddr => { r with srcAddr := BitVec.ofInt 32 v }
  | .srcW => { r with srcW := BitVec.ofInt 16 v }
  | .srcH => { r with srcH := BitVec.ofInt 16 v }
  | .dstAddr => { r with dstAddr := BitVec.ofInt 32 v }
  | .dstW => { r with dstW := BitVec.ofInt 16 v }
  | .dstH => { r with dstH := BitVec.ofInt 16 v }

theorem store_valueWord (r : RegFile) (n : RegName) (v : Int) : r.store n (valueWord v) = r.assign n v := by
  cases n with
  | status =>
    rw [RegFile.store, RegFile.assign]
    cases (valueWord v).getLsbD 0 <;> simp
  | x | y | w | h | srcW | srcH | dstW | dstH => rw [RegFile.store, RegFile.assign, lowHalf_valueWord]
  | cmd | fbAddr | color | srcAddr | dstAddr => rfl

/-- The lines that write the numbers `ws` to their registers, in order. -/
def writeLines (ws : List (RegName × Int)) : List AsmLine := ws.map fun p => .wr p.1 p.2

/-- The registers after those lines. -/
def RegFile.assignAll (r : RegFile) (ws : List (RegName × Int)) : RegFile := ws.foldl (fun r p => r.assign p.1 p.2) r

theorem runSteps_one (s : State) : runSteps 1 s = step s := by
  rw [runSteps]
  cases step s <;> rfl

/-- Register writes take one step each, and further steps start from the registers they leave. -/
theorem runSteps_writes {ws : List (RegName × Int)} (hws : ∀ p ∈ ws, p.1 ≠ .cmd) (n : Nat) (s : State)
    (rest : List HostAction) :
    runSteps (ws.length + n) (s.setHost (assembleAll (writeLines ws) ++ rest)) =
      runSteps n ((s.setHost rest).setRegs (s.regs.assignAll ws)) := by
  induction ws generalizing s with
  | nil =>
    rw [List.length_nil, Nat.zero_add]
    rfl
  | cons p ws ih =>
    obtain ⟨hp, hws⟩ := List.forall_mem_cons.1 hws
    rw [List.length_cons, Nat.succ_add, runSteps, step_store hp rfl, store_valueWord]
    exact ih hws (s.setRegs (s.regs.assign p.1 p.2))

/-- Register writes and then a command are the command on the registers the writes leave (30_encoding.md R69). -/
theorem runSteps_writes_cmd {ws : List (RegName × Int)} (hws : ∀ p ∈ ws, p.1 ≠ .cmd) (i : Instr) (s : State)
    (rest : List HostAction) :
    runSteps (ws.length + 1) (s.setHost (assembleAll (writeLines ws ++ [AsmLine.cmd i]) ++ rest)) =
      exec i ((s.setHost rest).setRegs (s.regs.assignAll ws)) := by
  have hlines : assembleAll (writeLines ws ++ [AsmLine.cmd i]) ++ rest =
      assembleAll (writeLines ws) ++ (cmdWrite (encode i) :: rest) := by
    rw [assembleAll, List.map_append, List.append_assoc]
    rfl
  rw [hlines, runSteps_writes hws, runSteps_one, step_cons rfl, act_cmdWrite, runCommand_of_ok (decode_encode i)]
  rfl

/-- Settles O58: every expansion is register writes, ended by a command except for `setfb` and `clrill`. -/
theorem pseudoInstructionsRunTheirCommand : Obligations.PseudoInstructionsRunTheirCommand := by
  intro s rest x y w h addr color src sw sh dst dw dh fmt run from_ rect
  have rectangle (i : Instr) := runSteps_writes_cmd (ws := [(.x, x), (.y, y), (.w, w), (.h, h), (.color, color)])
    (by simp) i s rest
  refine ⟨?setfb, ?pblend, rectangle .fill, rectangle .fillb, rectangle .shadow, ?cblend, ?drawImage, ?resize,
    ?clrill⟩
  case setfb => exact runSteps_writes (ws := [(.fbAddr, addr)]) (by simp) 0 s rest
  case pblend => exact runSteps_writes_cmd (ws := [(.x, x), (.y, y), (.color, color)]) (by simp) .pblend s rest
  case cblend =>
    exact runSteps_writes_cmd
      (ws := [(.x, x), (.y, y), (.w, w), (.h, h), (.srcAddr, addr), (.color, color)]) (by simp) .cblend s rest
  case drawImage =>
    exact runSteps_writes_cmd
      (ws := [(.x, x), (.y, y), (.w, w), (.h, h), (.srcAddr, addr)]) (by simp) (blitOf fmt) s rest
  case resize =>
    refine (runSteps_writes_cmd
      (ws := [(.srcAddr, src), (.srcW, sw), (.srcH, sh), (.dstAddr, dst), (.dstW, dw), (.dstH, dh)]) (by simp) .resize
      s rest).trans ?_
    simp only [from_, RegFile.assignAll, List.foldl, RegFile.assign]
  case clrill => exact runSteps_writes (ws := [(.status, 1)]) (by simp) 0 s rest

end Sys2Proof.Machine
end

section
/-! PROOFS. The obligations about `Blend8` and the two pixel primitives. -/

namespace Sys2Proof.Machine

/-! ## The blend arithmetic -/

/-- The two weights of the sum add up to 255, so it is at most 255 * 255 (40_blend.md R80). -/
theorem blendSum_le (f c alpha : Byte) : c.toNat * alpha.toNat + f.toNat * (255 - alpha.toNat) ≤ 65025 := by
  have hc : c.toNat * alpha.toNat ≤ 255 * alpha.toNat := Nat.mul_le_mul_right _ (by omega)
  have hf : f.toNat * (255 - alpha.toNat) ≤ 255 * (255 - alpha.toNat) := Nat.mul_le_mul_right _ (by omega)
  omega

/-- The quotient fits 8 bits, so storing it loses nothing. -/
theorem toNat_blend8 (f c alpha : Byte) :
    (blend8 f c alpha).toNat = (c.toNat * alpha.toNat + f.toNat * (255 - alpha.toNat)) / 255 := by
  have hsum := blendSum_le f c alpha
  rw [blend8, BitVec.toNat_ofNat, Nat.mod_eq_of_lt (by omega)]

@[simp] theorem blend8_alpha_zero (f c : Byte) : blend8 f c 0 = f := by
  apply BitVec.eq_of_toNat_eq
  rw [toNat_blend8]
  simp

@[simp] theorem blend8_alpha_255 (f c : Byte) : blend8 f c 255 = c := by
  apply BitVec.eq_of_toNat_eq
  rw [toNat_blend8]
  simp

/-- Blending a value onto itself keeps it: its two weights add up to 255. -/
@[simp] theorem blend8_self (f alpha : Byte) : blend8 f f alpha = f := by
  apply BitVec.eq_of_toNat_eq
  have hweights : alpha.toNat + (255 - alpha.toNat) = 255 := by omega
  rw [toNat_blend8, ← Nat.mul_add, hweights, Nat.mul_div_cancel _ (by decide)]

theorem blend8_mono {f f' c c' : Byte} (hf : f ≤ f') (hc : c ≤ c') (alpha : Byte) :
    blend8 f c alpha ≤ blend8 f' c' alpha := by
  rw [BitVec.le_def] at hf hc ⊢
  rw [toNat_blend8, toNat_blend8]
  exact Nat.div_le_div_right (Nat.add_le_add (Nat.mul_le_mul_right _ hc) (Nat.mul_le_mul_right _ hf))

/-- The result lies between the two values, since it is monotone and keeps equal values. -/
theorem blend8_between (f c alpha : Byte) :
    min f.toNat c.toNat ≤ (blend8 f c alpha).toNat ∧ (blend8 f c alpha).toNat ≤ max f.toNat c.toNat := by
  have lower {v : Byte} (hf : v ≤ f) (hc : v ≤ c) : v.toNat ≤ (blend8 f c alpha).toNat := by
    simpa using BitVec.le_def.1 (blend8_mono hf hc alpha)
  have upper {v : Byte} (hf : f ≤ v) (hc : c ≤ v) : (blend8 f c alpha).toNat ≤ v.toNat := by
    simpa using BitVec.le_def.1 (blend8_mono hf hc alpha)
  obtain h | h := BitVec.le_total f c
  · exact ⟨(Nat.min_le_left ..).trans (lower (BitVec.le_refl f) h),
      (upper h (BitVec.le_refl c)).trans (Nat.le_max_right ..)⟩
  · exact ⟨(Nat.min_le_right ..).trans (lower h (BitVec.le_refl c)),
      (upper (BitVec.le_refl f) h).trans (Nat.le_max_left ..)⟩

theorem blend8_black_white (alpha : Byte) : blend8 0 255 alpha = alpha := by
  apply BitVec.eq_of_toNat_eq
  rw [toNat_blend8]
  simp

theorem blend8_white_black (alpha : Byte) : blend8 255 0 alpha = 255 - alpha := by
  apply BitVec.eq_of_toNat_eq
  have hle : alpha.toNat ≤ 255 := by omega
  have hsub : (255 - alpha).toNat = 255 - alpha.toNat := BitVec.toNat_sub_of_le hle
  rw [toNat_blend8, hsub]
  simp

/-- Settles O33, from the bound on the sum. -/
theorem blendIsTheTruncatedQuotient : Obligations.BlendIsTheTruncatedQuotient :=
  fun f c alpha => ⟨toNat_blend8 f c alpha, blendSum_le f c alpha⟩

/-- Settles O34: the laws above; white at alpha 128 onto black gives 128, and once more 191. -/
theorem blendLaws : Obligations.BlendLaws :=
  ⟨fun f c => ⟨blend8_alpha_zero f c, blend8_alpha_255 f c⟩, blend8_self, blend8_between,
    fun _ _ _ _ alpha hf hc => blend8_mono hf hc alpha,
    fun alpha => ⟨blend8_black_white alpha, blend8_white_black alpha⟩, by decide, 0, 255, 128, by decide⟩

/-! ## The pixel primitives -/

theorem putBlend_of_not_inCanvas {fb : Addr} {x y : Int} (h : inCanvas x y = false) (c : Color) (m : Memory) :
    putBlend fb x y c m = m := by
  simp [putBlend, h]

theorem putRaw_of_not_inCanvas {fb : Addr} {x y : Int} (h : inCanvas x y = false) (c : Color) (m : Memory) :
    putRaw fb x y c m = m := by
  simp [putRaw, h]

/-- Settles O35, from what `PutBlend` makes of its own pixel and of the bytes outside it. -/
theorem putBlendPixel : Obligations.PutBlendPixel := fun _ _ _ c m =>
  ⟨fun hout => putBlend_of_not_inCanvas hout c m,
    fun hin => ⟨loadPixel_putBlend c m hin, fun _ ha => read_putBlend_outside fun _ => ha⟩⟩

/-- Settles O36, as O35 for `PutRaw`. -/
theorem putRawPixel : Obligations.PutRawPixel := fun _ _ _ c m =>
  ⟨fun hout => putRaw_of_not_inCanvas hout c m,
    fun hin => ⟨loadPixel_putRaw c m hin, fun _ ha => read_putRaw_outside fun _ => ha⟩⟩

end Sys2Proof.Machine
end

section
/-! PROOFS. The obligations about the commands of the alpha_blender unit: which pixels a traversal visits, what it leaves
in them, and that it writes no other byte. -/

namespace Sys2Proof.Machine

/-! ## The pixels of a rectangle and of the shadow band -/

/-- An address that is no byte of a pixel is out of reach of a primitive drawing it. -/
theorem RegFile.not_pixelByte_iff {r : RegFile} {px py : Int} {a : Addr} :
    ¬ r.PixelByte px py a ↔ (inCanvas px py = true → ∀ k < 4, a ≠ addrPlus (pixelAddr r.fbAddr px py) k) := by
  simp only [RegFile.PixelByte, not_and, not_exists, ne_eq]

/-- The pixels of the rectangle are those its traversal visits (40_blend.md R84). -/
theorem RegFile.inRect_iff {r : RegFile} {px py : Int} :
    r.InRect px py ↔ ∃ col row : Nat, col < r.width ∧ row < r.height ∧ px = r.posX + col ∧ py = r.posY + row := by
  constructor
  · rintro ⟨hleft, hright, htop, hbottom⟩
    exact ⟨(px - r.posX).toNat, (py - r.posY).toNat, by omega, by omega, by omega, by omega⟩
  · rintro ⟨col, row, hcol, hrow, rfl, rfl⟩
    exact ⟨by omega, by omega, by omega, by omega⟩

/-- The pixels of row `k` of the shadow band are those its traversal visits (40_blend.md R88). -/
theorem RegFile.inShadowRow_iff {r : RegFile} {k : Nat} {px py : Int} :
    r.InShadowRow k px py ↔
      k < 4 ∧ ∃ j : Nat, j < r.width - 2 * k ∧ px = r.posX + k + j ∧ py = r.posY + r.height + k := by
  constructor
  · rintro ⟨hk, hleft, hright, hrow⟩
    exact ⟨hk, (px - r.posX - k).toNat, by omega, by omega, hrow⟩
  · rintro ⟨hk, j, hj, rfl, rfl⟩
    exact ⟨hk, by omega, by omega, rfl⟩

/-- A traversal of the rectangle whose body keeps a byte outside its own pixel keeps every byte that is outside all the
pixels of the rectangle. -/
theorem read_forRect_of_not_pixelByte {r : RegFile} {m : Memory} {a : Addr} {body : Nat → Nat → Memory → Memory}
    (ha : ∀ px py, r.InRect px py → ¬ r.PixelByte px py a)
    (hbody : ∀ (col row : Nat) (t : Memory),
      (inCanvas (r.posX + col) (r.posY + row) = true →
        ∀ k < 4, a ≠ addrPlus (pixelAddr r.fbAddr (r.posX + col) (r.posY + row)) k) →
      (body col row t).read a = t.read a) :
    (forRect r.width r.height body m).read a = m.read a :=
  forRect_none (obs := fun m => Memory.read m a) fun col row t hcol hrow =>
    hbody col row t (RegFile.not_pixelByte_iff.1 (ha _ _ (RegFile.inRect_iff.2 ⟨col, row, hcol, hrow, rfl, rfl⟩)))

/-! ## The commands without a source -/

/-- A command without a source has no launch obligation, so it always ends in the memory its loops give. -/
theorem exec_of_not_read {i : Instr} (h : RegName.srcAddr ∉ readBy i) (s : State) :
    exec i s = .next (s.setMem (commandMem i s.regs s.mem)) :=
  exec_defined (launchDefined_of_not_read h s.regs)

/-- Settles O38: the command is one `PutBlend`. -/
theorem pblendResult : Obligations.PblendResult := by
  refine ⟨decode_encode .pblend, fun s => ⟨_, exec_of_not_read (by decide) s, rfl, ?pixel, ?frame⟩⟩
  case pixel => exact fun hin => loadPixel_putBlend s.regs.ink s.mem hin
  case frame => exact fun a ha => read_putBlend_outside (RegFile.not_pixelByte_iff.1 ha)

/-- Settles O39: the traversal stores each canvas pixel of the rectangle, and one iteration alone reaches it. -/
theorem fillResult : Obligations.FillResult := by
  refine ⟨decode_encode .fill, fun s => ⟨_, exec_of_not_read (by decide) s, rfl, ?pixel, ?frame⟩⟩
  case pixel =>
    intro px py hin hrect
    obtain ⟨col, row, hcol, hrow, rfl, rfl⟩ := RegFile.inRect_iff.1 hrect
    exact loadPixel_forRect (g := fun _ _ _ => s.regs.ink) (fun _ _ t h => loadPixel_putRaw s.regs.ink t h)
      (fun _ _ _ _ _ h hne => loadPixel_putRaw_other h hne) hcol hrow hin
  case frame => exact fun a ha => read_forRect_of_not_pixelByte ha fun _ _ _ => read_putRaw_outside

/-- Settles O40: as O39, with the pixel blended by the one iteration that reaches it. -/
theorem fillbResult : Obligations.FillbResult := by
  refine ⟨decode_encode .fillb, fun s => ⟨_, exec_of_not_read (by decide) s, rfl, ?pixel, ?frame⟩⟩
  case pixel =>
    intro px py hin hrect
    obtain ⟨col, row, hcol, hrow, rfl, rfl⟩ := RegFile.inRect_iff.1 hrect
    exact loadPixel_blendFrom (ink := fun _ _ _ => s.regs.ink) (fun _ _ _ _ _ _ => rfl) hcol hrow hin
  case frame => exact fun a ha => read_forRect_of_not_pixelByte ha fun _ _ _ => read_putBlend_outside

/-! ## The shadow band -/

/-- No row's alpha exceeds the base, so storing it loses nothing (40_blend.md R88). -/
theorem toNat_shadowAlpha (base : Byte) (k : Nat) : (shadowAlpha base k).toNat = base.toNat * (4 - k) / 4 := by
  have hle : base.toNat * (4 - k) ≤ base.toNat * 4 := Nat.mul_le_mul_left _ (Nat.sub_le 4 k)
  rw [shadowAlpha, BitVec.toNat_ofNat, shadowRows_eq, Nat.mod_eq_of_lt (by omega)]

/-- A row of the band blends each of its canvas pixels once. -/
theorem loadPixel_shadowRow {r : RegFile} {k : Nat} {px py : Int} (m : Memory) (hin : inCanvas px py = true)
    (hrow : r.InShadowRow k px py) :
    loadPixel (shadowRow r k m) (pixelAddr r.fbAddr px py) =
      blendPixel (loadPixel m (pixelAddr r.fbAddr px py)) (r.shadowInk k) := by
  obtain ⟨-, j, hj, rfl, rfl⟩ := RegFile.inShadowRow_iff.1 hrow
  exact forRange_one (obs := fun m => loadPixel m (pixelAddr r.fbAddr (r.posX + k + j) (r.posY + r.height + k)))
    (g := fun f => blendPixel f (r.shadowInk k)) hj
    (fun _ _ _ hne => loadPixel_putBlend_other hin (by omega)) fun t => loadPixel_putBlend _ t hin

/-- A row of the band leaves the canvas pixels of other rows alone. -/
theorem loadPixel_shadowRow_other {r : RegFile} {k : Nat} {px py : Int} (m : Memory) (hin : inCanvas px py = true)
    (hne : py ≠ r.posY + r.height + k) :
    loadPixel (shadowRow r k m) (pixelAddr r.fbAddr px py) = loadPixel m (pixelAddr r.fbAddr px py) :=
  forRange_none (obs := fun m => loadPixel m (pixelAddr r.fbAddr px py)) fun _ _ _ =>
    loadPixel_putBlend_other hin fun he => hne he.2.symm

/-- A row of the band writes the bytes of its own pixels only. -/
theorem read_shadowRow_of_not_pixelByte {r : RegFile} {k : Nat} (m : Memory) {a : Addr} (hk : k < 4)
    (ha : ∀ px py, r.InShadowRow k px py → ¬ r.PixelByte px py a) : (shadowRow r k m).read a = m.read a :=
  forRange_none (obs := fun m => Memory.read m a) fun j _ hj =>
    read_putBlend_outside (RegFile.not_pixelByte_iff.1 (ha _ _ (RegFile.inShadowRow_iff.2 ⟨hk, j, hj, rfl, rfl⟩)))

/-- Settles O41: row `k` of the band is the only one that reaches a pixel of it. -/
theorem shadowResult : Obligations.ShadowResult := by
  refine ⟨decode_encode .shadow, fun s => ⟨_, exec_of_not_read (by decide) s, rfl, ?pixel, ?frame⟩⟩
  case pixel =>
    intro k px py hin hrow
    have ⟨hk, _, _, hpy⟩ := hrow
    refine ⟨shadowAlpha s.regs.ink.a k, toNat_shadowAlpha _ k, ?_⟩
    exact forRange_one (obs := fun m => loadPixel m (pixelAddr s.regs.fbAddr px py))
      (g := fun f => blendPixel f (s.regs.shadowInk k)) hk
      (fun k' t _ hne => loadPixel_shadowRow_other t hin (by omega)) fun t => loadPixel_shadowRow t hin hrow
  case frame =>
    exact fun a ha => forRange_none (obs := fun m => Memory.read m a) fun k t hk =>
      read_shadowRow_of_not_pixelByte t hk (ha k)

/-! ## CBLEND -/

/-- With the regions apart, a coverage byte is what it was at the start, whatever was drawn since
(70_reset_and_hazards.md R155). -/
theorem coverInk_stable {r : RegFile} {m t : Memory} {col row : Nat} (hlaunch : launchDefined .cblend r = true)
    (hcol : col < r.width) (hrow : row < r.height)
    (ht : ∀ a, inRegion r.fbAddr Config.fbBytes a = false → t.read a = m.read a) :
    coverInk r col row t = coverInk r col row m := by
  have hsrc : inRegion r.srcAddr r.coverageBytes (coverageAddr r.srcAddr r.width col row) = true :=
    inRegion_iff.2 ⟨_, pixelOffset_lt hcol hrow, rfl⟩
  rw [coverInk, coverInk, ht _ (launchDefined_apart hlaunch hsrc)]

/-- Settles O42: each canvas pixel is blended once, with the coverage byte the command started with. -/
theorem cblendResult : Obligations.CblendResult := by
  refine ⟨decode_encode .cblend, fun s hlaunch => ⟨_, exec_defined hlaunch, rfl, ?pixel, ?frame⟩⟩
  case pixel =>
    exact fun col row hcol hrow hin => loadPixel_blendFrom (ink := coverInk s.regs)
      (fun _ _ _ hc hr ht => coverInk_stable hlaunch hc hr ht) hcol hrow hin
  case frame => exact fun a ha => read_forRect_of_not_pixelByte ha fun _ _ _ => read_putBlend_outside

/-! ## Empty rectangles -/

/-- A command launched with an empty source region on the framebuffer meets its launch obligations. -/
theorem launchDefined_of_empty_source {i : Instr} {r : RegFile} (hres : i ≠ .resize) (h : (sourceRegion i r).2 = 0) :
    launchDefined i r = true := by
  simp [launchDefined, h, writtenRegion_of_ne_resize hres, not_overlap_empty_left]

/-- An empty rectangle has no source bytes (20_memory.md R47, R48). -/
theorem sourceRegion_length_of_empty {i : Instr} {r : RegFile} (hres : i ≠ .resize) (h : r.width = 0 ∨ r.height = 0) :
    (sourceRegion i r).2 = 0 := by
  have harea : r.width * r.height = 0 := Nat.mul_eq_zero.2 h
  cases i with
  | pblend | fill | fillb | shadow => rfl
  | cblend => exact harea
  | blitRgb24 | blitRgba32 | blitBgr24 | blitAbgr32 => simp [sourceRegion, RegFile.imageBytes, harea]
  | resize => exact absurd rfl hres

/-- A command other than RESIZE whose loops do nothing on an empty rectangle does nothing at all. -/
theorem exec_of_empty {i : Instr} {s : State} (hres : i ≠ .resize) (h : s.regs.width = 0 ∨ s.regs.height = 0)
    (hmem : commandMem i s.regs s.mem = s.mem) : exec i s = .next s := by
  rw [exec_defined (launchDefined_of_empty_source hres (sourceRegion_length_of_empty hres h)), hmem, State.setMem_self]

/-- No row of the band of an empty width has a column (40_blend.md R88). -/
theorem shadowRow_of_width_zero {r : RegFile} (h : r.width = 0) (k : Nat) (m : Memory) : shadowRow r k m = m := by
  rw [shadowRow, h, Nat.zero_sub, forRange_zero]

/-- Settles O44: neither the traversal of an empty rectangle nor that of a band of width 0 visits a pixel. -/
theorem emptyRectanglesDrawNothing : Obligations.EmptyRectanglesDrawNothing := by
  intro s
  have zero {v : Half} (h : v = 0) : v.toNat = 0 := by rw [h]; rfl
  constructor
  · intro hempty i hi
    have hsize : s.regs.width = 0 ∨ s.regs.height = 0 := hempty.imp zero zero
    cases i with
    | pblend | shadow | resize => exact absurd hi (by decide)
    | fill | fillb | cblend | blitRgb24 | blitRgba32 | blitBgr24 | blitAbgr32 =>
      exact exec_of_empty (by decide) hsize (forRect_empty hsize)
  · intro hw
    exact exec_of_empty (by decide) (.inl (zero hw))
      (forRange_none (obs := id) fun k m _ => shadowRow_of_width_zero (zero hw) k m)

end Sys2Proof.Machine
end

section
/-! PROOFS. The obligations about the commands of the image_format_converter unit: one result for the four formats, by
the traversal they share, then the channel order of each. -/

namespace Sys2Proof.Machine

/-! ## The source pixel -/

/-- The raw bytes of a source pixel, by their offsets from the source base (41_blit.md R106). -/
theorem sourcePixel_eq (fmt : PixelFormat) (r : RegFile) (col row : Nat) (m : Memory) :
    sourcePixel fmt r col row m =
      convert fmt fun k => m.read (addrPlus r.srcAddr ((row * r.width + col) * bpp fmt + k)) := by
  simp only [sourcePixel, imageAddr, addrPlus_addrPlus]

/-- A format's channel table uses the format's own bytes only (41_blit.md R100). -/
theorem convert_congr {fmt : PixelFormat} {b b' : Nat → Byte} (h : ∀ k < bpp fmt, b k = b' k) :
    convert fmt b = convert fmt b' := by
  cases fmt with
  | rgb24 | bgr24 => simp only [convert, h 0 (by decide), h 1 (by decide), h 2 (by decide)]
  | rgba32 | abgr32 => simp only [convert, h 0 (by decide), h 1 (by decide), h 2 (by decide), h 3 (by decide)]

/-- Blending an opaque colour stores it (40_blend.md R90). -/
theorem blendPixel_opaque (f : Color) {c : Color} (h : c.a = 255) : blendPixel f c = c := by
  cases c
  subst h
  simp only [blendPixel, blend8_alpha_255]

/-! ## The four commands as one -/

theorem sourceRegion_blitOf (fmt : PixelFormat) (r : RegFile) :
    sourceRegion (blitOf fmt) r = (r.srcAddr, r.imageBytes fmt) := by
  cases fmt <;> rfl

theorem writtenRegion_blitOf (fmt : PixelFormat) (r : RegFile) :
    writtenRegion (blitOf fmt) r = (r.fbAddr, Config.fbBytes) := by
  cases fmt <;> rfl

theorem commandMem_blitOf (fmt : PixelFormat) (r : RegFile) (m : Memory) :
    commandMem (blitOf fmt) r m = blitLoop fmt r m := by
  cases fmt <;> rfl

/-- With the regions apart, a source pixel is what it was at the start, whatever was drawn since
(70_reset_and_hazards.md R155). -/
theorem sourcePixel_stable {fmt : PixelFormat} {r : RegFile} {m t : Memory} {col row : Nat}
    (hlaunch : launchDefined (blitOf fmt) r = true) (hcol : col < r.width) (hrow : row < r.height)
    (ht : ∀ a, inRegion r.fbAddr Config.fbBytes a = false → t.read a = m.read a) :
    sourcePixel fmt r col row t = sourcePixel fmt r col row m := by
  rw [sourcePixel_eq, sourcePixel_eq]
  refine convert_congr fun k hk => ht _ ?_
  have hsrc : inRegion r.srcAddr (r.imageBytes fmt)
      (addrPlus r.srcAddr ((row * r.width + col) * bpp fmt + k)) = true :=
    inRegion_iff.2 ⟨_, imageOffset_lt hcol hrow hk, rfl⟩
  have hapart := launchDefined_apart hlaunch (by rw [sourceRegion_blitOf]; exact hsrc)
  rwa [writtenRegion_blitOf] at hapart

/-- What a BLIT does, whatever its format (41_blit.md R101 to R104): with `drawn` the blend of the converted source
pixels the command started with, each canvas pixel of the image becomes `drawn`, and nothing else changes. -/
theorem exec_blitOf {fmt : PixelFormat} {s : State} {drawn : Nat → Nat → Color} (hlaunch : s.LaunchOk (blitOf fmt))
    (hdrawn : ∀ col row : Nat,
      blendPixel (s.pixel (s.regs.posX + col) (s.regs.posY + row))
        (convert fmt fun k => s.mem.read (addrPlus s.regs.srcAddr ((row * s.regs.width + col) * bpp fmt + k))) =
      drawn col row) :
    ∃ t, exec (blitOf fmt) s = .next t ∧ t = s.setMem t.mem ∧
      (∀ col row : Nat, col < s.regs.width → row < s.regs.height →
        inCanvas (s.regs.posX + col) (s.regs.posY + row) = true →
        t.pixel (s.regs.posX + col) (s.regs.posY + row) = drawn col row) ∧
      ∀ a, (∀ px py, s.regs.InRect px py → ¬ s.regs.PixelByte px py a) → t.mem.read a = s.mem.read a := by
  refine ⟨s.setMem (blitLoop fmt s.regs s.mem), ?next, rfl, ?pixel, ?frame⟩
  case next => rw [exec_defined hlaunch, commandMem_blitOf]
  case pixel =>
    intro col row hcol hrow hin
    rw [← hdrawn, ← sourcePixel_eq]
    exact loadPixel_blendFrom (ink := sourcePixel fmt s.regs)
      (fun _ _ _ hc hr ht => sourcePixel_stable hlaunch hc hr ht) hcol hrow hin
  case frame => exact fun a ha => read_forRect_of_not_pixelByte ha fun _ _ _ => read_putBlend_outside

/-! ## The four formats -/

/-- Settles O45: the converted pixel is opaque, so the blend stores it. -/
theorem blitRgb24Result : Obligations.BlitRgb24Result :=
  ⟨decode_encode .blitRgb24, fun _ hlaunch => exec_blitOf (fmt := .rgb24) hlaunch fun _ _ => blendPixel_opaque _ rfl⟩

/-- Settles O46: the converted pixel is the four raw bytes in order, the last of them the alpha. -/
theorem blitRgba32Result : Obligations.BlitRgba32Result :=
  ⟨decode_encode .blitRgba32, fun _ hlaunch => exec_blitOf (fmt := .rgba32) hlaunch fun _ _ => rfl⟩

/-- Settles O47: as O45, with the raw bytes in the opposite order. -/
theorem blitBgr24Result : Obligations.BlitBgr24Result :=
  ⟨decode_encode .blitBgr24, fun _ hlaunch => exec_blitOf (fmt := .bgr24) hlaunch fun _ _ => blendPixel_opaque _ rfl⟩

/-- Settles O48: as O46, with the raw bytes in the opposite order. -/
theorem blitAbgr32Result : Obligations.BlitAbgr32Result :=
  ⟨decode_encode .blitAbgr32, fun _ hlaunch => exec_blitOf (fmt := .abgr32) hlaunch fun _ _ => rfl⟩

end Sys2Proof.Machine
end

section
/-! PROOFS. The resampler's arithmetic in exact rationals (42_resize.md R112, R113, R116, R121), and the integer form
that the machine runs (R115). -/

namespace Sys2Proof.Machine

/-! ## `Q8` -/

theorem q8_of_neg {v : Rat} (h : v < 0) : q8 v = 0 := if_pos h

theorem q8_of_ge {v : Rat} (h : 255 ≤ v) : q8 v = 255 := by
  rw [q8, if_neg (by linarith), if_pos h]

/-- An integer that fits a byte is stored without loss. -/
theorem toNat_ofNat_toNat {z : Int} (h0 : 0 ≤ z) (h : z < 255) : ((BitVec.ofNat 8 z.toNat).toNat : Int) = z := by
  rw [BitVec.toNat_ofNat]
  omega

/-- Between the two clamps `Q8` is the floor (42_resize.md R113). -/
theorem toNat_q8 {v : Rat} (h0 : 0 ≤ v) (h : v < 255) : ((q8 v).toNat : Int) = ⌊v⌋ := by
  rw [q8, if_neg (not_lt.2 h0), if_neg (not_le.2 h)]
  exact toNat_ofNat_toNat (Int.floor_nonneg.2 h0) (Int.floor_lt.2 h)

/-- `Q8` of a byte is that byte (42_resize.md R118). -/
theorem q8_byte (b : Byte) : q8 ((b.toNat : Int) : Rat) = b := by
  have hb := b.isLt
  obtain h | h : b.toNat = 255 ∨ b.toNat < 255 := by omega
  · rw [h, q8_of_ge (by norm_num)]
    exact BitVec.eq_of_toNat_eq h.symm
  · have hfloor := toNat_q8 (v := ((b.toNat : Int) : Rat)) (by positivity) (by exact_mod_cast h)
    rw [Int.floor_intCast] at hfloor
    exact BitVec.eq_of_toNat_eq (by exact_mod_cast hfloor)

/-- Settles O49: the two clamps, and the floor's own bounds between them. -/
theorem qEightClampsAndRoundsDown : Obligations.QEightClampsAndRoundsDown := by
  intro v
  refine ⟨q8_of_neg, q8_of_ge, fun h0 h => ?_⟩
  have hfloor : ((q8 v).toNat : Int) = ⌊v⌋ := toNat_q8 h0 h
  obtain ⟨hle, hlt⟩ := Int.floor_eq_iff.1 hfloor.symm
  exact ⟨hfloor, by exact_mod_cast hle, by exact_mod_cast hlt⟩

/-! ## The tap weights -/

/-- The four tap weights at the fraction `t` (42_resize.md R116). `cubic_eq_tapWeight` ties them to `cubic`. -/
def tapWeight (i : Fin 4) (t : Rat) : Rat :=
  match i with
  | 0 => -t * (t - 1) * (t - 2) / 6
  | 1 => (t + 1) * (t - 1) * (t - 2) / 2
  | 2 => -(t + 1) * t * (t - 2) / 2
  | 3 => (t + 1) * t * (t - 1) / 6

theorem cubic_eq_tapWeight (s0 s1 s2 s3 : Int) (t : Rat) :
    cubic s0 s1 s2 s3 t = tapWeight 0 t * s0 + tapWeight 1 t * s1 + tapWeight 2 t * s2 + tapWeight 3 t * s3 := by
  simp only [cubic, tapWeight]
  ring

/-- The outer two weights together, a square away from their least value, which they take at `t = 1/2`. -/
theorem tapWeight_outer (t : Rat) : tapWeight 0 t + tapWeight 3 t = (t - 1 / 2) ^ 2 / 2 - 1 / 8 := by
  simp only [tapWeight]
  ring

/-- The inner two weights together, a square away from their greatest value, which they take at `t = 1/2`. -/
theorem tapWeight_inner (t : Rat) : tapWeight 1 t + tapWeight 2 t = 9 / 8 - (t - 1 / 2) ^ 2 / 2 := by
  simp only [tapWeight]
  ring

theorem tapWeight_sum (t : Rat) : tapWeight 0 t + tapWeight 1 t + tapWeight 2 t + tapWeight 3 t = 1 := by
  linarith [tapWeight_outer t, tapWeight_inner t]

theorem tapWeight_zero : tapWeight 0 0 = 0 ∧ tapWeight 1 0 = 1 ∧ tapWeight 2 0 = 0 ∧ tapWeight 3 0 = 0 := by
  norm_num [tapWeight]

/-- Strictly between two samples the outer weights are negative and the inner ones positive. -/
theorem tapWeight_signs {t : Rat} (h0 : 0 < t) (h1 : t < 1) :
    tapWeight 0 t < 0 ∧ 0 < tapWeight 1 t ∧ 0 < tapWeight 2 t ∧ tapWeight 3 t < 0 := by
  have hu : 0 < 1 - t := by linarith
  have hv : 0 < 2 - t := by linarith
  have hw : 0 < t + 1 := by linarith
  have p0 : 0 < t * (1 - t) * (2 - t) := by positivity
  have p1 : 0 < (t + 1) * (1 - t) * (2 - t) := by positivity
  have p2 : 0 < (t + 1) * t * (2 - t) := by positivity
  have p3 : 0 < (t + 1) * t * (1 - t) := by positivity
  simp only [tapWeight]
  exact ⟨by linarith, by linarith, by linarith, by linarith⟩

/-- At a sample itself the outer weights vanish, and the signs hold in the weak sense. -/
theorem tapWeight_signs_of_nonneg {t : Rat} (h0 : 0 ≤ t) (h1 : t < 1) :
    tapWeight 0 t ≤ 0 ∧ 0 ≤ tapWeight 1 t ∧ 0 ≤ tapWeight 2 t ∧ tapWeight 3 t ≤ 0 := by
  obtain rfl | hpos := h0.eq_or_lt
  · norm_num [tapWeight]
  · obtain ⟨n0, p1, p2, n3⟩ := tapWeight_signs hpos h1
    exact ⟨n0.le, p1.le, p2.le, n3.le⟩

/-- Settles O50, with the weights of `tapWeight`. -/
theorem cubicIsATapWeightSum : Obligations.CubicIsATapWeightSum := by
  refine ⟨tapWeight, fun t => ⟨rfl, rfl, rfl, rfl⟩, cubic_eq_tapWeight, tapWeight_sum, tapWeight_zero, ?half, ?quarter,
    fun t => tapWeight_signs⟩
  case half => norm_num [tapWeight]
  case quarter => norm_num [tapWeight]

/-! ## The range of `Cubic` -/

/-- `Cubic` at fraction 0 is the centre sample (42_resize.md R118). -/
@[simp] theorem cubic_fraction_zero (s0 s1 s2 s3 : Int) : cubic s0 s1 s2 s3 0 = s1 := by
  obtain ⟨w0, w1, w2, w3⟩ := tapWeight_zero
  simp [cubic_eq_tapWeight, w0, w1, w2, w3]

/-- `Cubic` of four samples that are 0 is 0 (42_resize.md R124). -/
@[simp] theorem cubic_samples_zero (t : Rat) : cubic 0 0 0 0 t = 0 := by
  simp [cubic_eq_tapWeight]

theorem byte_cast_le (b : Byte) : (((b.toNat : Int)) : Rat) ≤ 255 := by
  have := b.isLt
  exact_mod_cast (show b.toNat ≤ 255 by omega)

/-- The range of `Cubic` over bytes: at most the inner weights at 255, at least the outer ones (42_resize.md R121). -/
theorem cubic_bounds (s0 s1 s2 s3 : Byte) {t : Rat} (h0 : 0 ≤ t) (h1 : t < 1) :
    -255 / 8 ≤ cubic s0.toNat s1.toNat s2.toNat s3.toNat t ∧
      cubic s0.toNat s1.toNat s2.toNat s3.toNat t ≤ 2295 / 8 := by
  have positiveTap {w : Rat} (b : Byte) (hw : 0 ≤ w) : 0 ≤ w * (b.toNat : Int) ∧ w * (b.toNat : Int) ≤ w * 255 :=
    ⟨mul_nonneg hw (by positivity), mul_le_mul_of_nonneg_left (byte_cast_le b) hw⟩
  have negativeTap {w : Rat} (b : Byte) (hw : w ≤ 0) : w * 255 ≤ w * (b.toNat : Int) ∧ w * (b.toNat : Int) ≤ 0 :=
    ⟨mul_le_mul_of_nonpos_left (byte_cast_le b) hw, mul_nonpos_of_nonpos_of_nonneg hw (by positivity)⟩
  obtain ⟨n0, p1, p2, n3⟩ := tapWeight_signs_of_nonneg h0 h1
  obtain ⟨lo0, hi0⟩ := negativeTap s0 n0
  obtain ⟨lo1, hi1⟩ := positiveTap s1 p1
  obtain ⟨lo2, hi2⟩ := positiveTap s2 p2
  obtain ⟨lo3, hi3⟩ := negativeTap s3 n3
  have hsq := sq_nonneg (t - 1 / 2)
  rw [cubic_eq_tapWeight]
  constructor
  · linarith [tapWeight_outer t]
  · linarith [tapWeight_inner t]

/-- Settles O52: the bounds, and the two examples that reach them. -/
theorem cubicOvershootIsBounded : Obligations.CubicOvershootIsBounded := by
  have hmax : cubic 0 255 255 0 (1 / 2) = 2295 / 8 := by norm_num [cubic]
  have hmin : cubic 255 0 0 255 (1 / 2) = -255 / 8 := by norm_num [cubic]
  refine ⟨fun s0 s1 s2 s3 t => cubic_bounds s0 s1 s2 s3, hmax, hmin, ?_, ?_⟩
  · exact q8_of_ge (by rw [hmax]; norm_num)
  · exact q8_of_neg (by rw [hmin]; norm_num)

/-! ## The integer form -/

theorem cubic_div (s0 s1 s2 s3 : Int) {n D : Nat} (hD : 0 < D) :
    cubic s0 s1 s2 s3 ((n : Rat) / D) = (cubicNum s0 s1 s2 s3 n D : Rat) / (6 * (D : Rat) ^ 3) := by
  have hD' : (D : Rat) ≠ 0 := by positivity
  simp only [cubic, cubicNum]
  push_cast
  field_simp
  ring

/-- `Q8` of a fraction, case by case over the integers (42_resize.md R115). -/
theorem q8Frac_eq_q8 (N : Int) {M : Nat} (hM : 0 < M) : q8Frac N M = q8 ((N : Rat) / M) := by
  have hM' : (0 : Rat) < M := by exact_mod_cast hM
  have hneg : (N : Rat) / M < 0 ↔ N < 0 := by rw [div_lt_iff₀ hM', zero_mul]; norm_cast
  have hge : 255 ≤ (N : Rat) / M ↔ 255 * (M : Int) ≤ N := by rw [le_div_iff₀ hM']; norm_cast
  have hfloor : ((N : Rat) / M).floor = N / M := Rat.floor_intCast_div_natCast N M
  simp only [q8Frac, q8, hneg, hge, hfloor]

theorem q8Frac_of_neg {N : Int} {M : Nat} (h : N < 0) : q8Frac N M = 0 := if_pos h

theorem q8Frac_of_ge {N : Int} {M : Nat} (h : 255 * (M : Int) ≤ N) : q8Frac N M = 255 := by
  rw [q8Frac, if_neg (by omega), if_pos h]

theorem toNat_q8Frac {N : Int} {M : Nat} (h0 : 0 ≤ N) (h : N < 255 * (M : Int)) :
    ((q8Frac N M).toNat : Int) = N / M := by
  rw [q8Frac, if_neg (by omega), if_neg (by omega)]
  have hM : (0 : Int) < M := by omega
  exact toNat_ofNat_toNat (Int.ediv_nonneg h0 hM.le) (Int.ediv_lt_of_lt_mul hM h)

/-- What the machine computes is the exact rule (42_resize.md R115, log 14). -/
theorem cubicQ8_eq_q8_cubic (s0 s1 s2 s3 : Byte) {n D : Nat} (hD : 0 < D) :
    cubicQ8 s0 s1 s2 s3 n D = q8 (cubic s0.toNat s1.toNat s2.toNat s3.toNat ((n : Rat) / D)) := by
  rw [cubic_div _ _ _ _ hD, cubicQ8, q8Frac_eq_q8 _ (by positivity)]
  push_cast
  rfl

/-- The numerator fits 64-bit signed arithmetic, because `Cubic` is in its range (42_resize.md R115). -/
theorem natAbs_cubicNum_lt (s0 s1 s2 s3 : Byte) {n D : Nat} (hn : n < D) (hD : D ≤ 65535) :
    (cubicNum s0.toNat s1.toNat s2.toNat s3.toNat n D).natAbs < 2 ^ 63 := by
  have hpos : 0 < D := Nat.zero_lt_of_lt hn
  have hpos' : (0 : Rat) < D := by exact_mod_cast hpos
  have hM : (0 : Rat) < 6 * (D : Rat) ^ 3 := by positivity
  have hcube : D ^ 3 ≤ 65535 ^ 3 := Nat.pow_le_pow_left hD 3
  obtain ⟨hlo, hhi⟩ := cubic_bounds s0 s1 s2 s3 (t := (n : Rat) / D) (by positivity)
    ((div_lt_one hpos').2 (by exact_mod_cast hn))
  rw [cubic_div _ _ _ _ hpos] at hlo hhi
  rw [le_div_iff₀ hM] at hlo
  rw [div_le_iff₀ hM] at hhi
  generalize cubicNum s0.toNat s1.toNat s2.toNat s3.toNat n D = N at hlo hhi ⊢
  have hlo' : -(255 * 6 * (D ^ 3 : Nat) : Int) ≤ 8 * N := by
    have : -(255 * 6 * (D : Rat) ^ 3) ≤ 8 * N := by linarith
    exact_mod_cast this
  have hhi' : 8 * N ≤ (2295 * 6 * (D ^ 3 : Nat) : Int) := by
    have : 8 * (N : Rat) ≤ 2295 * 6 * (D : Rat) ^ 3 := by linarith
    exact_mod_cast this
  omega

/-- Settles O51: the fraction, `Q8` of it by its three cases, and the bound that its range gives. -/
theorem cubicIntegerForm : Obligations.CubicIntegerForm := by
  intro s0 s1 s2 s3 n D hn
  have hD : 0 < D := Nat.zero_lt_of_lt hn
  have hM : 6 * (D : Int) ^ 3 = (6 * D ^ 3 : Nat) := by push_cast; rfl
  rw [hM]
  exact ⟨cubic_div _ _ _ _ hD, cubicQ8_eq_q8_cubic s0 s1 s2 s3 hD, q8Frac_of_neg, q8Frac_of_ge, toNat_q8Frac,
    natAbs_cubicNum_lt s0 s1 s2 s3 hn⟩

end Sys2Proof.Machine
end

section
/-! PROOFS. RESIZE: its coordinates and taps (42_resize.md R117), the loop as the exact per-pixel rule (R114), and the
laws that follow from the rule (R118, R120, R124). -/

namespace Sys2Proof.Machine

/-! ## The taps -/

/-- A tap outside the source reads 0 (42_resize.md R111). -/
theorem getPix_of_outside {r : RegFile} {z x : Int} (h : (z < 0 ∨ r.srcHeight ≤ z) ∨ x < 0 ∨ r.srcWidth ≤ x)
    (m : Memory) (k : Nat) : getPix r m z x k = 0 :=
  if_neg (by omega)

/-- A tap inside the source reads its byte (42_resize.md R110, R111). -/
theorem getPix_of_inside {r : RegFile} {z x : Int} (hz : 0 ≤ z ∧ z < r.srcHeight) (hx : 0 ≤ x ∧ x < r.srcWidth)
    (m : Memory) (k : Nat) :
    getPix r m z x k = m.read (addrPlus r.srcAddr ((z.toNat * r.srcWidth + x.toNat) * 3 + k)) :=
  if_pos ⟨hx.1, hx.2, hz.1, hz.2⟩

theorem coordInt_lt {j sw dw : Nat} (hj : j < dw) (hsw : 1 ≤ sw) : coordInt j sw dw < sw :=
  Nat.div_lt_of_lt_mul (Nat.mul_lt_mul_of_pos_right hj hsw)

/-- The rule of 42_resize.md R117 for a tap is that its coordinate is out of range, when the centre is in range. -/
theorem tapOutside_iff {d : Int} {x w : Nat} (hd : d ∈ ([-1, 0, 1, 2] : List Int)) (hx : x < w) :
    tapOutside d x w ↔ (x : Int) + d < 0 ∨ w ≤ (x : Int) + d := by
  simp only [List.mem_cons, List.not_mem_nil, or_false] at hd
  simp only [tapOutside]
  omega

/-- Settles O53: a centre coordinate is in range, so `tapOutside` decides each axis of a tap. -/
theorem sourceCoordinatesStayInside : Obligations.SourceCoordinatesStayInside := by
  refine ⟨fun j sw dw hj hsw => ⟨?_, ?_, ?_⟩, fun j sw dw d hd hj hsw => tapOutside_iff hd (coordInt_lt hj hsw),
    fun r m i j k hi hj hsh hsw d hd e he => ?taps, fun sw dw => ?origin⟩
  · exact Nat.le_sub_one_of_lt (coordInt_lt hj hsw)
  · exact Nat.mod_lt _ (Nat.zero_lt_of_lt hj)
  · exact Nat.div_add_mod' (j * sw) dw
  case taps =>
    have hrow := tapOutside_iff hd (coordInt_lt hi hsh)
    have hcol := tapOutside_iff he (coordInt_lt hj hsw)
    dsimp only
    rw [hrow, hcol]
    exact ⟨fun hout => getPix_of_outside hout m k,
      fun hin hin' => getPix_of_inside (by omega) (by omega) m k⟩
  case origin => simp [coordInt, coordNum]

/-! ## The machine's passes are the exact ones -/

theorem rowSample_eq_exactRow {r : RegFile} (hw : 0 < r.dstWidth) (m : Memory) (z : Int) (j k : Nat) :
    rowSample r m z j k = exactRow r m z j k :=
  cubicQ8_eq_q8_cubic _ _ _ _ hw

theorem outSample_eq_exactOut {r : RegFile} (hw : 0 < r.dstWidth) (hh : 0 < r.dstHeight) (m : Memory) (i j k : Nat) :
    outSample r m i j k = exactOut r m i j k := by
  simp only [outSample, rowSample_eq_exactRow hw]
  exact cubicQ8_eq_q8_cubic _ _ _ _ hh

/-! ## The loop -/

/-- Different samples of an image of at most 2^32 bytes have different addresses. -/
theorem sampleAddr_inj {base : Addr} {w h col row k col' row' k' : Nat} (hlen : w * h * 3 ≤ 2 ^ 32) (hc : col < w)
    (hr : row < h) (hk : k < 3) (hc' : col' < w) (hr' : row' < h) (hk' : k' < 3)
    (e : sampleAddr base w col row k = sampleAddr base w col' row' k') : col = col' ∧ row = row' ∧ k = k' :=
  sampleOffset_inj hc hc' hk hk' (addrPlus_inj ((sampleOffset_lt hc hr hk).trans_le hlen)
    ((sampleOffset_lt hc' hr' hk').trans_le hlen) e)

/-- Storing one byte for every sample of an image of at most 2^32 bytes leaves in each sample its own byte. -/
theorem read_storeSamples {base : Addr} {w h col row k : Nat} {v : Nat → Nat → Nat → Byte} (m : Memory)
    (hlen : w * h * 3 ≤ 2 ^ 32) (hc : col < w) (hr : row < h) (hk : k < 3) :
    (forRect w h (fun c r => forRange 3 fun k m => m.write (sampleAddr base w c r k) (v r c k)) m).read
      (sampleAddr base w col row k) = v row col k := by
  refine forRect_one (obs := fun m => Memory.read m (sampleAddr base w col row k)) (g := fun _ => v row col k) hc hr
    (fun c r t hc' hr' hne => forRange_none (obs := fun m => Memory.read m _) fun k' t hk' => ?other)
    fun t => forRange_one (obs := fun m => Memory.read m _) (g := fun _ => v row col k) hk
      (fun k' t hk' hne => ?channel) fun t => ?own
  case other =>
    rw [Memory.read_write, if_neg]
    intro e
    obtain ⟨hcol, hrow, -⟩ := sampleAddr_inj hlen hc hr hk hc' hr' hk' e
    exact hne ⟨hcol.symm, hrow.symm⟩
  case channel =>
    rw [Memory.read_write, if_neg]
    intro e
    obtain ⟨-, -, hchan⟩ := sampleAddr_inj hlen hc hr hk hc hr hk' e
    exact hne hchan.symm
  case own => rw [Memory.read_write, if_pos rfl]

/-- Two memories hold the same source image. -/
def RegFile.SameSource (r : RegFile) (m m' : Memory) : Prop :=
  ∀ a, inRegion r.srcAddr r.resizeSrcBytes a = true → m.read a = m'.read a

/-- With the launch obligations met, storing a destination byte keeps the source (70_reset_and_hazards.md R155). -/
theorem RegFile.SameSource.write {r : RegFile} {m t : Memory} (h : r.SameSource m t)
    (hlaunch : launchDefined .resize r = true) {i j k : Nat} (hi : i < r.dstHeight) (hj : j < r.dstWidth) (hk : k < 3)
    (v : Byte) : r.SameSource m (t.write (sampleAddr r.dstAddr r.dstWidth j i k) v) := by
  intro a ha
  have hne : a ≠ sampleAddr r.dstAddr r.dstWidth j i k := by
    rintro rfl
    have hdst : inRegion r.dstAddr r.resizeDstBytes (sampleAddr r.dstAddr r.dstWidth j i k) = true :=
      inRegion_iff.2 ⟨_, sampleOffset_lt hj hi hk, rfl⟩
    exact Bool.false_ne_true ((launchDefined_apart (i := .resize) hlaunch ha).symm.trans hdst)
  rw [Memory.read_write, if_neg hne, h a ha]

/-- With the launch obligations met, the loop stores the samples of the source it started with. -/
theorem resizeLoop_eq_storeSamples {r : RegFile} (hlaunch : launchDefined .resize r = true) (m : Memory) :
    resizeLoop r m = forRect r.dstWidth r.dstHeight
      (fun j i => forRange 3 fun k t => t.write (sampleAddr r.dstAddr r.dstWidth j i k) (outSample r m i j k)) m := by
  refine forRect_congr_of (P := r.SameSource m) (fun _ _ => rfl) (fun j i t hj hi ht => ?keeps)
    fun j i t hj hi ht => ?agree
  case keeps => exact forRange_keeps ht fun k _ hk hu => hu.write hlaunch hi hj hk _
  case agree =>
    refine forRange_congr_of ht (fun k _ hk hu => hu.write hlaunch hi hj hk _) fun k u hk hu => ?_
    rw [outSample_congr hu i j hk]

theorem read_resizeLoop {r : RegFile} {i j k : Nat} (hlaunch : launchDefined .resize r = true) (hi : i < r.dstHeight)
    (hj : j < r.dstWidth) (hk : k < 3) (m : Memory) :
    (resizeLoop r m).read (addrPlus r.dstAddr ((i * r.dstWidth + j) * 3 + k)) = exactOut r m i j k := by
  have hlen : r.dstWidth * r.dstHeight * 3 ≤ 2 ^ 32 := by
    simp only [launchDefined, Bool.and_eq_true, decide_eq_true_eq] at hlaunch
    exact hlaunch.2
  rw [resizeLoop_eq_storeSamples hlaunch, ← outSample_eq_exactOut (Nat.zero_lt_of_lt hj) (Nat.zero_lt_of_lt hi)]
  exact read_storeSamples (v := outSample r m) m hlen hj hi hk

/-- Settles O54: the loop stores the exact samples, and no byte outside the destination region. -/
theorem resizeResult : Obligations.ResizeResult :=
  ⟨decode_encode .resize, fun s hlaunch => ⟨_, exec_defined hlaunch, rfl,
    fun _ _ _ hi hj hk => read_resizeLoop hlaunch hi hj hk s.mem, fun _ ha => read_resizeLoop_outside ha⟩⟩

/-! ## Whole factors -/

/-- Where `dw` divides `j * sw` the first pass copies (42_resize.md R118). -/
theorem exactRow_of_dvd {r : RegFile} {j : Nat} (h : r.dstWidth ∣ j * r.srcWidth) (m : Memory) (z : Int) (k : Nat) :
    exactRow r m z j k = getPix r m z (j * r.srcWidth / r.dstWidth : Nat) k := by
  simp only [exactRow, Nat.mod_eq_zero_of_dvd h, Nat.cast_zero, zero_div, cubic_fraction_zero, q8_byte]

/-- Where `dh` divides `i * sh` the second pass copies (42_resize.md R118). -/
theorem exactOut_of_dvd {r : RegFile} {i : Nat} (h : r.dstHeight ∣ i * r.srcHeight) (m : Memory) (j k : Nat) :
    exactOut r m i j k = exactRow r m (i * r.srcHeight / r.dstHeight : Nat) j k := by
  simp only [exactOut, Nat.mod_eq_zero_of_dvd h, Nat.cast_zero, zero_div, cubic_fraction_zero, q8_byte]

/-- Settles O55: both passes copy, so an output byte is one source byte. -/
theorem resizeByWholeFactorsPicksPixels : Obligations.ResizeByWholeFactorsPicksPixels := by
  intro s m m' hlaunch hm hm' hw hh
  obtain ⟨t, hexec, -, hbyte, -⟩ := resizeResult.2 s hlaunch
  refine ⟨t, hexec, fun i j k hi hj hk => ?_⟩
  have hcol : j * s.regs.srcWidth = j * m * s.regs.dstWidth := by rw [hw, Nat.mul_assoc]
  have hrow : i * s.regs.srcHeight = i * m' * s.regs.dstHeight := by rw [hh, Nat.mul_assoc]
  have hx : j * m < s.regs.srcWidth := by
    rw [hw, Nat.mul_comm m]
    exact Nat.mul_lt_mul_of_pos_right hj hm
  have hy : i * m' < s.regs.srcHeight := by
    rw [hh, Nat.mul_comm m']
    exact Nat.mul_lt_mul_of_pos_right hi hm'
  rw [hbyte i j k hi hj hk, exactOut_of_dvd (Dvd.intro_left _ hrow.symm), exactRow_of_dvd (Dvd.intro_left _ hcol.symm),
    hrow, hcol, Nat.mul_div_cancel _ (Nat.zero_lt_of_lt hi), Nat.mul_div_cancel _ (Nat.zero_lt_of_lt hj)]
  exact getPix_of_inside (by omega) (by omega) s.mem k

/-! ## Rows outside the source, and empty images -/

/-- The first pass over taps that all read 0 gives 0 (42_resize.md R124). -/
theorem exactRow_eq_zero {r : RegFile} {m : Memory} {z : Int} {k : Nat} (h : ∀ x, getPix r m z x k = 0) (j : Nat) :
    exactRow r m z j k = 0 := by
  simp only [exactRow, h]
  exact (congrArg q8 (cubic_samples_zero _)).trans (q8_byte 0)

/-- The second pass over rows that are all 0 gives 0 (42_resize.md R120). -/
theorem exactOut_eq_zero {r : RegFile} {m : Memory} {j k : Nat} (h : ∀ z, exactRow r m z j k = 0) (i : Nat) :
    exactOut r m i j k = 0 := by
  simp only [exactOut, h]
  exact (congrArg q8 (cubic_samples_zero _)).trans (q8_byte 0)

/-- Every byte of an image region is the byte of one sample. -/
theorem exists_sample_of_lt {w h n : Nat} (hn : n < w * h * 3) :
    ∃ i j k, i < h ∧ j < w ∧ k < 3 ∧ n = (i * w + j) * 3 + k := by
  have hpix : n / 3 < h * w := by
    rw [Nat.mul_comm h]
    omega
  have hw : 0 < w := Nat.pos_of_mul_pos_left (Nat.zero_lt_of_lt hpix)
  refine ⟨n / 3 / w, n / 3 % w, n % 3, Nat.div_lt_of_lt_mul (by rwa [Nat.mul_comm w]), Nat.mod_lt _ hw,
    Nat.mod_lt _ (by decide), ?_⟩
  rw [Nat.div_add_mod', Nat.div_add_mod']

/-- A RESIZE whose source or destination is empty has no overlap to avoid (70_reset_and_hazards.md R155). -/
theorem launchDefined_resize_of_empty {r : RegFile} (h : r.resizeSrcBytes = 0 ∨ r.resizeDstBytes = 0)
    (hlen : r.resizeDstBytes ≤ 2 ^ 32) : launchDefined .resize r = true := by
  have hapart : regionsOverlap r.srcAddr r.resizeSrcBytes r.dstAddr r.resizeDstBytes = false := by
    obtain h | h := h
    · rw [h, not_overlap_empty_left]
    · rw [h, not_overlap_empty_right]
  simp only [launchDefined, Bool.and_eq_true, Bool.not_eq_true', decide_eq_true_eq]
  exact ⟨hapart, hlen⟩

/-- Settles O56: no destination sample, or every sample 0. -/
theorem resizeOfEmptyImages : Obligations.ResizeOfEmptyImages := by
  have zero {v : Half} (h : v = 0) : v.toNat = 0 := by rw [h]; rfl
  refine ⟨fun s hdst => ?_, fun s hsrc hlen => ?_⟩
  · have hsize : s.regs.dstWidth = 0 ∨ s.regs.dstHeight = 0 := hdst.imp zero zero
    have hempty : s.regs.resizeDstBytes = 0 := by
      rw [RegFile.resizeDstBytes, Nat.mul_eq_zero.2 hsize, Nat.zero_mul]
    rw [exec_defined (launchDefined_resize_of_empty (.inr hempty) (by omega)), commandMem, resizeLoop,
      forRect_empty hsize, State.setMem_self]
  · have hsize : s.regs.srcWidth = 0 ∨ s.regs.srcHeight = 0 := hsrc.imp zero zero
    have hempty : s.regs.resizeSrcBytes = 0 := by
      rw [RegFile.resizeSrcBytes, Nat.mul_eq_zero.2 hsize, Nat.zero_mul]
    have hpix (z x : Int) (k : Nat) : getPix s.regs s.mem z x k = 0 := getPix_of_outside (by omega) s.mem k
    obtain ⟨t, hexec, hframe, hbyte, hout⟩ := resizeResult.2 s (launchDefined_resize_of_empty (.inl hempty) hlen)
    refine ⟨t, hexec, hframe, fun a => ?_⟩
    split
    case isTrue ha =>
      obtain ⟨n, hn, rfl⟩ := inRegion_iff.1 ha
      obtain ⟨i, j, k, hi, hj, hk, rfl⟩ := exists_sample_of_lt hn
      rw [hbyte i j k hi hj hk]
      exact exactOut_eq_zero (fun z => exactRow_eq_zero (fun x => hpix z x k) j) i
    case isFalse ha => exact hout a (Bool.eq_false_iff.2 ha)

/-! ## The whole-image form -/

/-- The rows of the exact first pass are an image padded with rows of 0 (42_resize.md R124). -/
theorem exactRow_padded (r : RegFile) (m : Memory) (z : Int) (j k : Nat) :
    (if 0 ≤ z ∧ z < r.srcHeight then exactRow r m z.toNat j k else 0) = exactRow r m z j k := by
  split
  case isTrue hz => rw [Int.toNat_of_nonneg hz.1]
  case isFalse hz => exact (exactRow_eq_zero (fun x => getPix_of_outside (by omega) m k) j).symm

/-- Settles O57: the intermediate image is the exact first pass of every source row. -/
theorem resizeIsATwoPassResize : Obligations.ResizeIsATwoPassResize := by
  intro r m
  refine ⟨fun z j k => exactRow r m z j k, fun _ _ _ _ _ => rfl, fun i j k _ _ => ?_⟩
  simp only [exactRow_padded]
  rfl

end Sys2Proof.Machine
end

section
/-! PROOFS. The effect of an illegal command word (60_exceptions.md R131). -/

namespace Sys2Proof.Machine

/-- Settles O7: a `CMD` write is `runCommand` of its word, and of an illegal word that only raises the flag. -/
theorem illegalWordSetsIllOnly : Obligations.IllegalWordSetsIllOnly := by
  intro s rest word h hill
  rw [step_cons h, act_cmdWrite, runCommand_of_illegal hill, State.raiseIllegal, State.setHost_regs]

end Sys2Proof.Machine
end

section
/-! PROOFS. Launch obligations and a reset during a command (70_reset_and_hazards.md R151, R155, R158): the overlap test
said in terms of shared bytes, what an undefined launch leaves alone, and the mix of old and new bytes a reset leaves. -/

namespace Sys2Proof.Machine

/-! ## Overlapping regions -/

/-- Going back from a shared byte, the base met first lies in the other region. -/
theorem base_inRegion_of_shared {b₁ b₂ a : Addr} {n₁ n₂ : Nat} (h₁ : inRegion b₁ n₁ a = true)
    (h₂ : inRegion b₂ n₂ a = true) : inRegion b₁ n₁ b₂ = true ∨ inRegion b₂ n₂ b₁ = true := by
  simp only [inRegion, decide_eq_true_eq] at *
  bv_omega

theorem length_pos_of_inRegion {b a : Addr} {n : Nat} (h : inRegion b n a = true) : 0 < n :=
  Nat.zero_lt_of_lt (of_decide_eq_true h)

theorem base_inRegion {n : Nat} (b : Addr) (h : 0 < n) : inRegion b n b = true :=
  inRegion_iff.2 ⟨0, h, (addrPlus_zero b).symm⟩

/-- The computed test, as the shared byte it stands for (70_reset_and_hazards.md R155). -/
theorem regionsOverlap_iff {b₁ b₂ : Addr} {n₁ n₂ : Nat} :
    regionsOverlap b₁ n₁ b₂ n₂ = true ↔ ∃ a, inRegion b₁ n₁ a = true ∧ inRegion b₂ n₂ a = true := by
  simp only [regionsOverlap, Bool.and_eq_true, Bool.or_eq_true, decide_eq_true_eq]
  constructor
  · rintro ⟨⟨hn₁, hn₂⟩, h | h⟩
    · exact ⟨b₂, h, base_inRegion b₂ hn₂⟩
    · exact ⟨b₁, base_inRegion b₁ hn₁, h⟩
  · rintro ⟨a, h₁, h₂⟩
    exact ⟨⟨length_pos_of_inRegion h₁, length_pos_of_inRegion h₂⟩, base_inRegion_of_shared h₁ h₂⟩

/-- Settles O29: a shared byte, named by its offset in either region. -/
theorem overlapIsASharedByte : Obligations.OverlapIsASharedByte := by
  intro b₁ b₂ n₁ n₂
  simp only [regionsOverlap_iff, inRegion_iff]
  constructor
  · rintro ⟨_, ⟨i, hi, rfl⟩, j, hj, hij⟩
    exact ⟨i, hi, j, hj, hij⟩
  · rintro ⟨i, hi, j, hj, hij⟩
    exact ⟨_, ⟨i, hi, rfl⟩, j, hj, hij⟩

/-! ## Launches outside the obligations, and commands without any -/

/-- Settles O30: the command ends through `finishFrom`, which then frees the two regions and nothing else. -/
theorem undefinedLaunchLeavesTheRestAlone : Obligations.UndefinedLaunchLeavesTheRestAlone := by
  intro i s hlaunch
  obtain ⟨hregs, hhost, hreads⟩ := exec_keeps (exec_eq i s)
  exact ⟨_, exec_eq i s, hregs, hhost, hreads, fun _ => finishFrom_undefined_outside hlaunch⟩

/-- Settles O31: none of the four reads `SRC_ADDR`. -/
theorem commandsWithoutSourceAreAlwaysDefined : Obligations.CommandsWithoutSourceAreAlwaysDefined := by
  intro s
  have hdefined (i : Instr) (h : RegName.srcAddr ∉ readBy i) : s.LaunchOk i := launchDefined_of_not_read h s.regs
  exact ⟨hdefined .pblend (by decide), hdefined .fill (by decide), hdefined .fillb (by decide),
    hdefined .shadow (by decide)⟩

/-! ## A reset during a command -/

/-- Whatever the free choices are, a byte of the mix is old or new. -/
theorem read_mixRegion (old new : Memory) (base : Addr) (len n : Nat) (a : Addr) :
    (mixRegion old new base len n).read a = old.read a ∨ (mixRegion old new base len n).read a = new.read a := by
  refine forRange_keeps (P := fun m => Memory.read m a = old.read a ∨ Memory.read m a = new.read a) (.inl rfl)
    fun i t _ ht => ?_
  split
  · rw [Memory.read_write]
    split
    · next ha => exact .inr (by rw [ha])
    · exact ht
  · exact ht

theorem read_mixRegion_outside {old new : Memory} {base : Addr} {len n : Nat} {a : Addr}
    (h : inRegion base len a = false) : (mixRegion old new base len n).read a = old.read a := by
  refine forRange_none (obs := fun m => Memory.read m a) fun i t hi => ?_
  split
  · rw [Memory.read_write, if_neg]
    intro ha
    exact Bool.false_ne_true (h.symm.trans (inRegion_iff.2 ⟨i, hi, ha⟩))
  · rfl

@[simp] theorem abandon_regs (i : Instr) (done s : State) : (abandon i done s).regs = RegFile.reset := rfl
@[simp] theorem abandon_host (i : Instr) (done s : State) : (abandon i done s).host = s.host := rfl
@[simp] theorem abandon_reads (i : Instr) (done s : State) : (abandon i done s).reads = s.reads := rfl
@[simp] theorem abandon_mem (i : Instr) (done s : State) :
    (abandon i done s).mem =
      mixRegion s.mem done.mem (writtenRegion i s.regs).1 (writtenRegion i s.regs).2 done.freeCount := rfl

/-- Settles O21: a legal word's command is abandoned, which mixes old and new bytes over its written region; an illegal
word leaves the reset alone. -/
theorem resetDuringCommandLeavesOldOrNewBytes : Obligations.ResetDuringCommandLeavesOldOrNewBytes := by
  constructor
  · intro s rest word i hhost hword
    have hdone := exec_eq i (s.setHost rest)
    have hstep := (step_cons hhost).trans (resetDuring_of_ok hword hdone)
    refine ⟨_, _, hdone, hstep, abandon_regs .., abandon_host .., abandon_reads .., fun a => ?_⟩
    rw [abandon_mem, State.setHost_mem, State.setHost_regs]
    exact ⟨fun _ => read_mixRegion .., read_mixRegion_outside⟩
  · intro s rest word hhost hword
    exact (step_cons hhost).trans (resetDuring_of_illegal hword (s.setHost rest))

end Sys2Proof.Machine
end
